-- ==== Sys2Proof/Word.lean ====
section
/-! DEFINITION. The word types of the machine (spec/00_scope.md rules R6, R7, R8). -/

namespace Sys2Proof

/-- A Word: the 16-bit pattern every register and every memory cell holds (R8, `WORD_BITS` of R6). -/
abbrev Word := BitVec 16

/-- An 8-bit field: the opcode byte of Word 0, or the system-call id (R71, R79). -/
abbrev Byte := BitVec 8

/-- A 4-bit field: `gr` or `xr` of Word 0 (R71). -/
abbrev Nibble := BitVec 4

end Sys2Proof
end

