-- ==== Sys2Proof/Config.lean ====
section
/-! DEFINITION. What is fixed for the machine and is no part of its state: the constants of rule R6, the values the
model names where the spec leaves one open, the policies a model may bind (spec/93_implementation_defined.md U1, U2,
U11), and the constants with no body: the system-call handler (R192) and the free values of U1 and U2. -/

namespace Sys2Proof.Config

/-- `MEM_WORDS` (R6, R30): every 16-bit address selects a cell. -/
def memWords : Nat := 65536

/-- `NUM_GR` (R6, R20). -/
def numGr : Nat := 5

/-- `MAX_REG_FIELD` (R6, R74): the largest legal value of `gr` and of `xr`. -/
def maxRegField : Nat := 4

/-- `SP_START` (R6, R41): the reset value of GR4; no rule compares SP with it (R62). -/
def spStart : Word := 0xFC00

/-- `PC_MAX` (R6, R62): named by the source and enforced by nothing of the block (decision D17). -/
def pcMax : Word := 0xFC00

/-- `RESET_GR` (R6, R40): the spec's decision D4, which its source does not state. -/
def resetGr : Word := 0

/-- `RESET_FR` (R6, R42): the spec's decision D4, which its source does not state. -/
def resetFr : Word := 0

/-- What a cell outside `IMAGE` holds after reset (R44), so what an address reads as that memory does not list. -/
def unlistedCell : Word := 0

/-- DESIGN CHOICE, unsafe (log entry 1): `START_PC` is an open argument of reset (R43); the parameterless
`State.reset` takes 0. -/
def startPc : Word := 0

/-- DESIGN CHOICE, unsafe (log entry 3): R45 leaves `fault_addr` unspecified until the first fault. -/
def resetFaultAddr : Word := 0

/-- DESIGN CHOICE, unsafe (log entry 3): R45 leaves `fault_word` unspecified until the first fault. -/
def resetFaultWord : Word := 0

/-- The values of `DIVZ_POLICY` (R134, U1): what DIV and MOD do on a zero divisor. -/
inductive DivzPolicy where
  /-- ArithmeticFault: the default (decision D6). -/
  | fault
  /-- No successor. -/
  | stuck
  /-- One unconstrained word. -/
  | anyValue
  /-- The result 0x0000. -/
  | zero
  /-- The result 0xFFFF. -/
  | allOnes
  /-- The old `GR[gr]`. -/
  | dividend
  deriving DecidableEq, Repr

/-- The values of `SHIFT_POLICY` (R150, U2): what a shift does with a count outside 0 to 15. -/
inductive ShiftPolicy where
  /-- As many one-bit shifts as the count says; a negative count faults: the default (decision D7). -/
  | iterateFault
  /-- The count's low 4 bits. -/
  | mask4
  /-- The count's low 5 bits, on the value widened to 32 bits. -/
  | mask5
  /-- One unconstrained word. -/
  | anyValue
  /-- As the default from 16 up; no successor on a negative count. -/
  | stuck
  deriving DecidableEq, Repr

/-- The values of `DISASM_CPL_CLASS` (R208, U11): the class CPL is printed in. -/
inductive CplClass where
  | registerOperand
  | addressOnly
  deriving DecidableEq, Repr

/-- The machine state as the system-call handler sees it: GR0 to GR4, PC, FR, `halted` and every memory cell
(R192, decision D16). `mem` is memory in its canonical form, so equal memories are shown as equal data. -/
structure HandlerView where
  gr0 : Word
  gr1 : Word
  gr2 : Word
  gr3 : Word
  gr4 : Word
  pc : Word
  fr : Word
  halted : Bool
  mem : List (Nat × Word)
  deriving DecidableEq, Repr

/-- What the handler leaves: a value for every register and flag it may write, and the memory writes it made, oldest
first. A memory is finite, so every change of memory is some list of writes (R192, decision D16). The fault record
and the handler itself stand nowhere in it: the handler cannot change them. -/
structure HandlerReply where
  gr0 : Word
  gr1 : Word
  gr2 : Word
  gr3 : Word
  gr4 : Word
  pc : Word
  fr : Word
  halted : Bool
  writes : List (Word × Word)
  deriving DecidableEq, Repr, Inhabited

/-- DESIGN CHOICE (log entry 2). `HOOK` (R192, U10): the system-call handlers a host can register at reset, by number;
what each does is OPEN, so it has no body. Each is a total function from what it may read and the id to what it
leaves. A statement proved of it holds for every handler. -/
opaque handler : Nat → HandlerView → Byte → HandlerReply

/-- DESIGN CHOICE (log entry 6). The unconstrained word of `DivzPolicy.anyValue` (U1), by operation (`true` for MOD)
and dividend: a free value. -/
opaque freeDivision : Bool → Word → Word

/-- DESIGN CHOICE (log entry 6). The unconstrained word of `ShiftPolicy.anyValue` (U2), by opcode byte, value and
count: a free value. -/
opaque freeShift : Byte → Word → Word → Word

end Sys2Proof.Config
end

