-- ==== Sys2Proof/Syntax.lean ====
section
/-! DEFINITION. The instructions: one constructor per row of spec/opcode_table.json, in the order of rule R76. -/

namespace Sys2Proof

/-- An instruction, with every bit its words give it. `gr` and `xr` are the two 4-bit fields of Word 0 (R71), `adr` is
Word 1 (R72). A format that ignores a field still has the field in its words, and the engine still checks it (R74), so
it stands here too; `Instr.WellFormed` says which values are legal. -/
inductive Instr where
  /-- HALT, format N (R190): `gr` and `xr` ignored. -/
  | halt (gr xr : Nibble)
  /-- LD, format RA (R120). -/
  | ld (gr xr : Nibble) (adr : Word)
  /-- ST, format RA (R121). -/
  | st (gr xr : Nibble) (adr : Word)
  /-- LEA, format RA (R122). -/
  | lea (gr xr : Nibble) (adr : Word)
  /-- ADD, format RA (R130). -/
  | add (gr xr : Nibble) (adr : Word)
  /-- SUB, format RA (R131). -/
  | sub (gr xr : Nibble) (adr : Word)
  /-- MUL, format RA (R132). -/
  | mul (gr xr : Nibble) (adr : Word)
  /-- DIV, format RA (R133). -/
  | div (gr xr : Nibble) (adr : Word)
  /-- MOD, format RA (R135). -/
  | mod (gr xr : Nibble) (adr : Word)
  /-- AND, format RA (R140). -/
  | and (gr xr : Nibble) (adr : Word)
  /-- OR, format RA (R141). -/
  | or (gr xr : Nibble) (adr : Word)
  /-- EOR, format RA (R142). -/
  | eor (gr xr : Nibble) (adr : Word)
  /-- SLA, format RA (R151). -/
  | sla (gr xr : Nibble) (adr : Word)
  /-- SRA, format RA (R152). -/
  | sra (gr xr : Nibble) (adr : Word)
  /-- SLL, format RA (R153). -/
  | sll (gr xr : Nibble) (adr : Word)
  /-- SRL, format RA (R154). -/
  | srl (gr xr : Nibble) (adr : Word)
  /-- CPA, format RA (R160). -/
  | cpa (gr xr : Nibble) (adr : Word)
  /-- CPL, format RA (R161). -/
  | cpl (gr xr : Nibble) (adr : Word)
  /-- JMP, format A (R170): `gr` ignored. -/
  | jmp (gr xr : Nibble) (adr : Word)
  /-- JPZ, format A (R171): `gr` ignored. -/
  | jpz (gr xr : Nibble) (adr : Word)
  /-- JMI, format A (R172): `gr` ignored. -/
  | jmi (gr xr : Nibble) (adr : Word)
  /-- JNZ, format A (R173): `gr` ignored. -/
  | jnz (gr xr : Nibble) (adr : Word)
  /-- JZE, format A (R174): `gr` ignored. -/
  | jze (gr xr : Nibble) (adr : Word)
  /-- PUSH, format A (R180): `gr` ignored. -/
  | push (gr xr : Nibble) (adr : Word)
  /-- POP, format R (R181): `xr` ignored. -/
  | pop (gr xr : Nibble)
  /-- CALL, format A (R182): `gr` ignored. -/
  | call (gr xr : Nibble) (adr : Word)
  /-- RET, format N (R183): `gr` and `xr` ignored. -/
  | ret (gr xr : Nibble)
  /-- SYSCALL, format S (R191): `id` is the whole low byte of Word 0, so both fields (R79). -/
  | syscall (id : Byte)
  deriving DecidableEq, Repr

end Sys2Proof
end

