-- ==== Sys2Proof/WellFormed.lean ====
section
/-! DEFINITION. Which instructions are legal: both 4-bit fields in 0 to 4, whether or not the format uses them
(spec/30_encoding.md rules R74, R78). Word 1 is never illegal. -/

namespace Sys2Proof

/-- A register field is legal from 0 to `MAX_REG_FIELD` (R74). -/
def legalField (f : Nibble) : Bool := decide (f.toNat ≤ Config.maxRegField)

/-- The `gr` field of Word 0 (R71); for SYSCALL the high half of the id (R79). -/
def Instr.gr : Instr → Nibble
  | .halt g _ | .pop g _ | .ret g _ => g
  | .ld g _ _ | .st g _ _ | .lea g _ _ | .add g _ _ | .sub g _ _ | .mul g _ _ | .div g _ _ | .mod g _ _ => g
  | .and g _ _ | .or g _ _ | .eor g _ _ | .sla g _ _ | .sra g _ _ | .sll g _ _ | .srl g _ _ => g
  | .cpa g _ _ | .cpl g _ _ | .jmp g _ _ | .jpz g _ _ | .jmi g _ _ | .jnz g _ _ | .jze g _ _ => g
  | .push g _ _ | .call g _ _ => g
  | .syscall id => id.extractLsb' 4 4

/-- The `xr` field of Word 0 (R71); for SYSCALL the low half of the id (R79). -/
def Instr.xr : Instr → Nibble
  | .halt _ x | .pop _ x | .ret _ x => x
  | .ld _ x _ | .st _ x _ | .lea _ x _ | .add _ x _ | .sub _ x _ | .mul _ x _ | .div _ x _ | .mod _ x _ => x
  | .and _ x _ | .or _ x _ | .eor _ x _ | .sla _ x _ | .sra _ x _ | .sll _ x _ | .srl _ x _ => x
  | .cpa _ x _ | .cpl _ x _ | .jmp _ x _ | .jpz _ x _ | .jmi _ x _ | .jnz _ x _ | .jze _ x _ => x
  | .push _ x _ | .call _ x _ => x
  | .syscall id => id.extractLsb' 0 4

/-- The check of R74, as a test. -/
def Instr.wellFormed (i : Instr) : Bool := legalField i.gr && legalField i.xr

/-- An instruction is well formed when `gr` and `xr` are each in 0 to 4 (R74). -/
abbrev Instr.WellFormed (i : Instr) : Prop := i.wellFormed = true

end Sys2Proof
end

