-- ==== Sys2Proof/Decode.lean ====
section
/-! DEFINITION. The instruction encoding (spec/30_encoding.md): the opcode map, the decoder that the engine and the
disassembler share, the engine's decoder with its two checks, and the encoder. -/

namespace Sys2Proof

/-! ## The opcode map (R76) -/

/-- The mnemonics of R76, in its order. -/
inductive Mnemonic where
  | halt | ld | st | lea | add | sub | mul | div | mod | and | or | eor
  | sla | sra | sll | srl | cpa | cpl | jmp | jpz | jmi | jnz | jze | push | pop | call | ret | syscall
  deriving DecidableEq, Repr

/-- The five formats of R73. -/
inductive Format where
  /-- Two words: `gr`, `xr`, `adr` used. -/
  | RA
  /-- Two words: `xr`, `adr` used. -/
  | A
  /-- One word: `gr` used. -/
  | R
  /-- One word: no field used. -/
  | N
  /-- One word: the low byte is the id. -/
  | S
  deriving DecidableEq, Repr

/-- Every mnemonic, in the order of R76. -/
def Mnemonic.all : List Mnemonic :=
  [.halt, .ld, .st, .lea, .add, .sub, .mul, .div, .mod, .and, .or, .eor, .sla, .sra, .sll, .srl, .cpa, .cpl,
   .jmp, .jpz, .jmi, .jnz, .jze, .push, .pop, .call, .ret, .syscall]

/-- `OPC`: the opcode byte of each mnemonic (R76, decision D1). No other definition binds a mnemonic to a number, so
another table is bound by changing this one. -/
def Mnemonic.opc : Mnemonic → Byte
  | .halt => 0x00
  | .ld   => 0x10
  | .st   => 0x11
  | .lea  => 0x12
  | .add  => 0x13
  | .sub  => 0x14
  | .mul  => 0x15
  | .div  => 0x16
  | .mod  => 0x17
  | .and  => 0x18
  | .or   => 0x19
  | .eor  => 0x1A
  | .sla  => 0x1B
  | .sra  => 0x1C
  | .sll  => 0x1D
  | .srl  => 0x1E
  | .cpa  => 0x1F
  | .cpl  => 0x20
  | .jmp  => 0x21
  | .jpz  => 0x22
  | .jmi  => 0x23
  | .jnz  => 0x24
  | .jze  => 0x25
  | .push => 0x26
  | .pop  => 0x27
  | .call => 0x28
  | .ret  => 0x29
  | .syscall => 0x2A

/-- `FORMAT` (R73, R76). -/
def Mnemonic.format : Mnemonic → Format
  | .halt | .ret => .N
  | .pop => .R
  | .syscall => .S
  | .jmp | .jpz | .jmi | .jnz | .jze | .push | .call => .A
  | .ld | .st | .lea | .add | .sub | .mul | .div | .mod | .and | .or | .eor => .RA
  | .sla | .sra | .sll | .srl | .cpa | .cpl => .RA

/-- `WORDS` (R77): 1 for HALT, POP, RET and SYSCALL, 2 for every other defined opcode. -/
def Mnemonic.words (m : Mnemonic) : Nat :=
  match m.format with
  | .RA | .A => 2
  | .R | .N | .S => 1

/-- `OPC_NAME` (R80): the mnemonic of a defined opcode byte; none for a byte outside `DEFINED` (R76). -/
def Mnemonic.ofOpc (op : Byte) : Option Mnemonic := Mnemonic.all.find? fun m => m.opc == op

/-! ## Fields (R71, R72) -/

/-- `op = w0[15:8]`. -/
def opField (w0 : Word) : Byte := w0.extractLsb' 8 8

/-- `gr = w0[7:4]`. -/
def grField (w0 : Word) : Nibble := w0.extractLsb' 4 4

/-- `xr = w0[3:0]`. -/
def xrField (w0 : Word) : Nibble := w0.extractLsb' 0 4

/-- `w0[7:0]`, the system-call id (R79). -/
def idField (w0 : Word) : Byte := w0.extractLsb' 0 8

/-- Word 0 from its three fields: `op ++ gr ++ xr` (R71, R81). -/
def word0Of (op : Byte) (gr xr : Nibble) : Word := op ++ gr ++ xr

/-! ## The shared decoder (R80) -/

/-- What `Decode` of R80 answers. `format`, `words` and `op` of a defined opcode are functions of its mnemonic. -/
inductive Decoded where
  | fields (m : Mnemonic) (gr xr : Nibble) (adr : Word)
  | undefined (op : Byte) (gr xr : Nibble) (adr : Word)
  deriving DecidableEq, Repr

/-- `Decode` of R80: total, raises nothing and checks no field; the engine and the disassembler both call it. -/
def decodeFields (w0 w1 : Word) : Decoded :=
  match Mnemonic.ofOpc (opField w0) with
  | some m => .fields m (grField w0) (xrField w0) w1
  | none => .undefined (opField w0) (grField w0) (xrField w0) w1

/-! ## Instructions and fields -/

/-- The instruction a mnemonic and its fields stand for; `adr` is dropped by a one-word form (R72). -/
def Mnemonic.instr (m : Mnemonic) (gr xr : Nibble) (adr : Word) : Instr :=
  match m with
  | .halt => .halt gr xr
  | .ld => .ld gr xr adr
  | .st => .st gr xr adr
  | .lea => .lea gr xr adr
  | .add => .add gr xr adr
  | .sub => .sub gr xr adr
  | .mul => .mul gr xr adr
  | .div => .div gr xr adr
  | .mod => .mod gr xr adr
  | .and => .and gr xr adr
  | .or => .or gr xr adr
  | .eor => .eor gr xr adr
  | .sla => .sla gr xr adr
  | .sra => .sra gr xr adr
  | .sll => .sll gr xr adr
  | .srl => .srl gr xr adr
  | .cpa => .cpa gr xr adr
  | .cpl => .cpl gr xr adr
  | .jmp => .jmp gr xr adr
  | .jpz => .jpz gr xr adr
  | .jmi => .jmi gr xr adr
  | .jnz => .jnz gr xr adr
  | .jze => .jze gr xr adr
  | .push => .push gr xr adr
  | .pop => .pop gr xr
  | .call => .call gr xr adr
  | .ret => .ret gr xr
  | .syscall => .syscall (gr ++ xr)

/-- The mnemonic of an instruction. -/
def Instr.mnemonic : Instr → Mnemonic
  | .halt _ _ => .halt
  | .ld _ _ _ => .ld
  | .st _ _ _ => .st
  | .lea _ _ _ => .lea
  | .add _ _ _ => .add
  | .sub _ _ _ => .sub
  | .mul _ _ _ => .mul
  | .div _ _ _ => .div
  | .mod _ _ _ => .mod
  | .and _ _ _ => .and
  | .or _ _ _ => .or
  | .eor _ _ _ => .eor
  | .sla _ _ _ => .sla
  | .sra _ _ _ => .sra
  | .sll _ _ _ => .sll
  | .srl _ _ _ => .srl
  | .cpa _ _ _ => .cpa
  | .cpl _ _ _ => .cpl
  | .jmp _ _ _ => .jmp
  | .jpz _ _ _ => .jpz
  | .jmi _ _ _ => .jmi
  | .jnz _ _ _ => .jnz
  | .jze _ _ _ => .jze
  | .push _ _ _ => .push
  | .pop _ _ => .pop
  | .call _ _ _ => .call
  | .ret _ _ => .ret
  | .syscall _ => .syscall

/-- Word 1 of a two-word instruction (R72); a one-word form has none, and 0 stands for it here. -/
def Instr.adr : Instr → Word
  | .ld _ _ a | .st _ _ a | .lea _ _ a | .add _ _ a | .sub _ _ a | .mul _ _ a | .div _ _ a | .mod _ _ a => a
  | .and _ _ a | .or _ _ a | .eor _ _ a | .sla _ _ a | .sra _ _ a | .sll _ _ a | .srl _ _ a => a
  | .cpa _ _ a | .cpl _ _ a | .jmp _ _ a | .jpz _ _ a | .jmi _ _ a | .jnz _ _ a | .jze _ _ a => a
  | .push _ _ a | .call _ _ a => a
  | .halt _ _ | .pop _ _ | .ret _ _ | .syscall _ => 0

/-! ## The engine's decoder -/

/-- Why the engine rejects a word pair; either raises IllegalInstruction (R102, R103). -/
inductive DecodeError where
  /-- `gr` or `xr` above 4 (R102). -/
  | malformedField (gr xr : Nibble)
  /-- An opcode byte outside `DEFINED` (R103). -/
  | undefinedOpcode (op : Byte)
  deriving DecidableEq, Repr

/-- The engine's decoder: the field check of R102, then the opcode check of R103, over the shared field extraction. -/
def decode (w0 w1 : Word) : Except DecodeError Instr :=
  if legalField (grField w0) && legalField (xrField w0) then
    match decodeFields w0 w1 with
    | .fields m gr xr adr => .ok (m.instr gr xr adr)
    | .undefined op _ _ _ => .error (.undefinedOpcode op)
  else .error (.malformedField (grField w0) (xrField w0))

/-- The decoder on a table word: bit 0 of `w` is bit 0 of Word 0, and Word 1 counts on from bit 16; bits from `nbits`
up are 0. -/
def decodeTableWord (nbits w : Nat) : Option Instr :=
  let v := w % 2 ^ nbits
  match decode (BitVec.ofNat 16 v) (BitVec.ofNat 16 (v / 65536)) with
  | .ok i => some i
  | .error _ => none

/-! ## The encoder (R81) -/

/-- Word 0 of an instruction: `OPC(mnemonic) * 256 + gr * 16 + xr` (R81). -/
def Instr.word0 (i : Instr) : Word := word0Of i.mnemonic.opc i.gr i.xr

/-- The words of an instruction: Word 0, and Word 1 for a two-word form (R70, R81). A field the format ignores keeps
its value. -/
def encode (i : Instr) : List Word :=
  match i.mnemonic.words with
  | 2 => [i.word0, i.adr]
  | _ => [i.word0]

/-- The instruction with the fields its format ignores set to 0. -/
def Instr.clearUnused (i : Instr) : Instr :=
  match i.mnemonic.format with
  | .RA | .S => i
  | .A => i.mnemonic.instr 0 i.xr i.adr
  | .R => i.mnemonic.instr i.gr 0 i.adr
  | .N => i.mnemonic.instr 0 0 i.adr

/-- R81's encoder for programs: "Unused fields are encoded as 0". -/
def assemble (i : Instr) : List Word := encode i.clearUnused

end Sys2Proof
end

