-- ==== Sys2Proof/Machine/State.lean ====
section
/-! DEFINITION. The machine's state as plain data (spec/10_state.md), its value right after reset, and the reasons a
step can stop. -/

namespace Sys2Proof.Machine

/-- The five general registers (R20); `gr4` is the stack pointer (R22). -/
inductive Reg where
  | gr0 | gr1 | gr2 | gr3 | gr4
  deriving DecidableEq, Repr

/-- SP is another name for GR4 (R9, R22). -/
abbrev Reg.sp : Reg := .gr4

/-- What `fault_cause` says (R29). -/
inductive FaultCause where
  /-- Code 0: no fault since reset. -/
  | none
  /-- Code 1 (R221). -/
  | illegalInstruction
  /-- Code 2 (R222). -/
  | arithmeticFault
  deriving DecidableEq, Repr

/-- Word Memory (R30): the cells that do not hold `Config.unlistedCell`, as (word address, cell) pairs. DESIGN CHOICE
(log entry 4): the addressable unit is the 16-bit cell and the machine has no byte order (R50, R51), so a pair holds a
cell, not a byte. -/
abbrev Memory := List (Nat × Word)

/-- The canonical form of a memory: addresses strictly rise and lie in 0 to 65535, and no pair holds what an unlisted
address reads as. Two memories in this form that read the same everywhere are the same list. -/
abbrev Memory.wf (m : Memory) : Prop :=
  m.Pairwise (fun c d => c.1 < d.1) ∧ ∀ c ∈ m, c.1 < Config.memWords ∧ c.2 ≠ Config.unlistedCell

/-- The whole state of the block (spec/10_state.md section 1, R28, R29). -/
structure State where
  /-- GR0 (R20). -/
  gr0 : Word
  /-- GR1 (R20). -/
  gr1 : Word
  /-- GR2 (R20). -/
  gr2 : Word
  /-- GR3 (R20). -/
  gr3 : Word
  /-- GR4, the stack pointer (R20, R22). -/
  gr4 : Word
  /-- The word address of the next instruction's Word 0 (R24). -/
  pc : Word
  /-- The flag register: the last result, a whole word (R26). -/
  fr : Word
  /-- The halted flag (R33). -/
  halted : Bool
  /-- `fault_cause` (R29). -/
  faultCause : FaultCause
  /-- `fault_addr` (R29): the PC of the faulting instruction. -/
  faultAddr : Word
  /-- `fault_word` (R29): its Word 0. -/
  faultWord : Word
  /-- Word Memory (R30). -/
  mem : Memory
  /-- The presence of the handler (R28): none, or the number of the handler `HOOK` that reset was given. -/
  hook : Option Nat
  deriving DecidableEq, Repr

/-- Why the machine stops without a next state. The faults of the spec (IllegalInstruction, ArithmeticFault) are NOT
here: they write the fault record and set `halted`, which is a next state (R223). -/
inductive Fault where
  /-- Raised by DIV and MOD on a zero divisor, only where `DIVZ_POLICY` is bound to `stuck` (U1). The bound policy is
  `fault`, under which no step raises it. Safe: the machine of that policy has no successor. -/
  | stuckDivision
  /-- Raised by a shift with a negative count, only where `SHIFT_POLICY` is bound to `stuck` (U2). The bound policy is
  `iterateFault`, under which no step raises it. Safe: the machine of that policy has no successor. -/
  | stuckShift
  deriving DecidableEq, Repr

/-- What the model rejects without a meaning. -/
inductive Refusal where
  /-- Raised by an arm of `exec` whose instruction has no meaning yet; no arm does. Safe. -/
  | notModelled (mnemonic : String)
  /-- Raised by the reset port on an image of more than 65536 words (R251, decision D18). Safe. -/
  | imageTooLong
  /-- Raised by the reset port on a start address above 65535 (R251, decision D18). Safe. -/
  | startPcOutOfRange
  /-- Raised by the render port on a start address above 65535 (R200, U12). Safe. -/
  | renderStartOutOfRange
  deriving DecidableEq, Repr

/-- The outcome of a step of this machine. -/
abbrev StepResult := Host.Outcome State Fault Refusal

/-- The machine right after `reset` with an empty image, `START_PC` 0 and no handler (R250, R40 to R45; log entries 1
and 3 name what is the model's choice). -/
def State.reset : State where
  gr0 := Config.resetGr
  gr1 := Config.resetGr
  gr2 := Config.resetGr
  gr3 := Config.resetGr
  gr4 := Config.spStart
  pc := Config.startPc
  fr := Config.resetFr
  halted := false
  faultCause := .none
  faultAddr := Config.resetFaultAddr
  faultWord := Config.resetFaultWord
  mem := []
  hook := none

end Sys2Proof.Machine
end

