-- ==== Sys2Proof/Machine/Ops.lean ====
section
/-! DEFINITION. The named operations over registers and memory (the primitives of rule R9), fault entry (R223) and the
system-call trap with its return (R192, R227, R228). -/

namespace Sys2Proof.Machine

/-! ## Memory (spec/20_memory.md) -/

/-- The cell at a numeric address: what is listed for it, else what an unlisted address reads as (R44). -/
def Memory.lookup (k : Nat) : Memory → Word
  | [] => Config.unlistedCell
  | (k', v) :: rest => if k' = k then v else Memory.lookup k rest

/-- `MemRead(a, 1)`: every 16-bit address selects a cell, by its unsigned reading (R9, R50, R52). -/
def Memory.read (m : Memory) (a : Word) : Word := m.lookup a.toNat

/-- The memory with nothing listed at an address. -/
def Memory.erase (k : Nat) (m : Memory) : Memory := m.filter fun c => c.1 != k

/-- The memory with a pair put in before the first higher address. -/
def Memory.place (k : Nat) (v : Word) : Memory → Memory
  | [] => [(k, v)]
  | (k', v') :: rest => if k < k' then (k, v) :: (k', v') :: rest else (k', v') :: Memory.place k v rest

/-- `MemWrite(a, 1, v)`: replaces the whole cell (R9, R56). It keeps the canonical form: writing what an unlisted
address reads as removes the pair. -/
def Memory.write (m : Memory) (a v : Word) : Memory :=
  if v = Config.unlistedCell then m.erase a.toNat else (m.erase a.toNat).place a.toNat v

/-- `IMAGE` from an address upward, every other cell 0 (R44). -/
def Memory.ofImage (k : Nat) : List Word → Memory
  | [] => []
  | w :: ws => if w = Config.unlistedCell then Memory.ofImage (k + 1) ws else (k, w) :: Memory.ofImage (k + 1) ws

/-- A list of writes, oldest first. -/
def Memory.writeAll (m : Memory) : List (Word × Word) → Memory
  | [] => m
  | (a, v) :: rest => (m.write a v).writeAll rest

/-- `Mem[a]` of a state. -/
def memRead (a : Word) (s : State) : Word := s.mem.read a

/-- `Mem[a] <- v` on a state. -/
def memWrite (a v : Word) (s : State) : State := { s with mem := s.mem.write a v }

/-! ## Registers (spec/10_state.md) -/

/-- `GR[i]` (R9, R23: no register is hardwired). -/
def readReg (r : Reg) (s : State) : Word :=
  match r with
  | .gr0 => s.gr0
  | .gr1 => s.gr1
  | .gr2 => s.gr2
  | .gr3 => s.gr3
  | .gr4 => s.gr4

/-- `GR[i] <- v` (R9, R23: no register is read-only). -/
def writeReg (r : Reg) (v : Word) (s : State) : State :=
  match r with
  | .gr0 => { s with gr0 := v }
  | .gr1 => { s with gr1 := v }
  | .gr2 => { s with gr2 := v }
  | .gr3 => { s with gr3 := v }
  | .gr4 => { s with gr4 := v }

/-- `PC <- t` (R9). -/
def setPc (t : Word) (s : State) : State := { s with pc := t }

/-- `FR <- v` (R9). -/
def setFr (v : Word) (s : State) : State := { s with fr := v }

/-- `halted <- b` (R9). -/
def setHalted (b : Bool) (s : State) : State := { s with halted := b }

/-! ## Fault entry -/

/-- `raise` (R223): the fault record is written, `halted` is set, and nothing else changes; PC still points at the
faulting instruction. -/
def raiseFault (cause : FaultCause) (addr word : Word) (s : State) : State :=
  { s with faultCause := cause, faultAddr := addr, faultWord := word, halted := true }

/-- The code the `fault_cause` port shows (R29). -/
def FaultCause.code : FaultCause → BitVec 2
  | .none => 0
  | .illegalInstruction => 1
  | .arithmeticFault => 2

/-! ## The system-call trap and its return -/

/-- What the handler may read (R192). -/
def State.handlerView (s : State) : Config.HandlerView where
  gr0 := s.gr0
  gr1 := s.gr1
  gr2 := s.gr2
  gr3 := s.gr3
  gr4 := s.gr4
  pc := s.pc
  fr := s.fr
  halted := s.halted
  mem := s.mem

/-- The return from the trap (R192, R228): what the handler leaves becomes the state; the fault record and the handler
are as they were. -/
def handlerReturn (r : Config.HandlerReply) (s : State) : State :=
  { s with
    gr0 := r.gr0, gr1 := r.gr1, gr2 := r.gr2, gr3 := r.gr3, gr4 := r.gr4
    pc := r.pc, fr := r.fr, halted := r.halted
    mem := s.mem.writeAll r.writes }

/-- The trap (R191, R227) under an assignment of handlers to numbers: with no handler registered nothing happens; else
the registered one is called once, on the state as it stands, and returns. -/
def trapWith (handlers : Nat → Config.HandlerView → Byte → Config.HandlerReply) (id : Byte) (s : State) : State :=
  match s.hook with
  | none => s
  | some h => handlerReturn (handlers h s.handlerView id) s

/-- The trap with the handlers of the environment, which have no body (R192). -/
def trap (id : Byte) (s : State) : State := trapWith Config.handler id s

end Sys2Proof.Machine
end

