-- ==== Sys2Proof/Machine/Parameters.lean ====
section
/-! DEFINITION. The parameters of rule R6 that a model may rebind, at the spec's defaults. The operations take a policy
as an argument; only the meanings read these bindings, so another binding is studied by changing one line here. The
opcode table `OPC` is `Mnemonic.opc` in Decode.lean; the text configuration is in Machine/Disassembler.lean. -/

namespace Sys2Proof.Machine

/-- `DIVZ_POLICY`, default `fault` (R134, decision D6). -/
def divzPolicy : Config.DivzPolicy := .fault

/-- `SHIFT_POLICY`, the default of R150 (decision D7). -/
def shiftPolicy : Config.ShiftPolicy := .iterateFault

/-- `DISASM_CPL_CLASS`, default `register_operand` (R208, decision D13). -/
def disasmCplClass : Config.CplClass := .registerOperand

/-- `DIVMOD`, for a divisor that is not 0: the quotient rounded toward zero and the remainder `a - q * b`, which is
zero or has the sign of `a` (R133, R135, decision D5). -/
def divmod (a b : Int) : Int × Int :=
  let q := a.tdiv b
  (q, a - q * b)

end Sys2Proof.Machine
end

