-- ==== Sys2Proof/Machine/Operands.lean ====
section
/-! DEFINITION. The readings of a word (R8), the register fields (R21), the effective address (R104), the advanced
program counter (R105), and the results of the arithmetic, logical and shift operations as functions of two words
(spec/42_arithmetic.md to spec/44_shift.md). -/

namespace Sys2Proof.Machine

/-! ## Readings of a word (R8) -/

/-- The unsigned reading, 0 to 65535. -/
def u16 (v : Word) : Int := (v.toNat : Int)

/-- The two's-complement signed reading, -32768 to 32767. -/
def s16 (v : Word) : Int := v.toInt

/-- The 16-bit pattern congruent to an integer modulo 65536. -/
def wrap16 (n : Int) : Word := BitVec.ofInt 16 n

/-! ## Fields and addresses -/

/-- The register a field of Word 0 names; none above 4 (R21). -/
def Reg.ofField (f : Nibble) : Option Reg :=
  match f.toNat with
  | 0 => some .gr0
  | 1 => some .gr1
  | 2 => some .gr2
  | 3 => some .gr3
  | 4 => some .gr4
  | _ => none

/-- `EA` (R104): `adr`, plus the index register modulo 65536 unless the field is 0, which means no indexing. -/
def effectiveAddress (x : Reg) (adr : Word) (s : State) : Word :=
  match x with
  | .gr0 => adr
  | r => wrap16 (u16 adr + u16 (readReg r s))

/-- `NPC` (R105): PC advanced by the instruction's width, modulo 65536. -/
def npc (m : Mnemonic) (s : State) : Word := wrap16 (u16 s.pc + m.words)

/-- `(u16(SP) - 1) mod 65536` (R184): where a push stores. -/
def pushAddress (s : State) : Word := wrap16 (u16 (readReg .sp s) - 1)

/-- `(u16(SP) + 1) mod 65536` (R184): SP after a pop. -/
def poppedSp (s : State) : Word := wrap16 (u16 (readReg .sp s) + 1)

/-! ## Results -/

/-- What an operation on two words gives. -/
inductive AluResult where
  /-- A result word. -/
  | value (r : Word)
  /-- ArithmeticFault (R222). -/
  | trap
  /-- No successor, with the reason: only under a policy `stuck` (U1, U2). -/
  | stuck (reason : Fault)
  deriving DecidableEq, Repr

/-- The result of an operation that gives a word for all operands. -/
def AluResult.always (f : Word → Word → Word) (a b : Word) : AluResult := .value (f a b)

/-- ADD (R130): the signed sum, wrapped (R136). -/
def addWords (a b : Word) : Word := wrap16 (s16 a + s16 b)

/-- SUB (R131) and CPA (R160): the signed difference, wrapped. -/
def subWords (a b : Word) : Word := wrap16 (s16 a - s16 b)

/-- CPL (R161): the unsigned difference, wrapped. -/
def subWordsUnsigned (a b : Word) : Word := wrap16 (u16 a - u16 b)

/-- MUL (R132): the low 16 bits of the signed product. -/
def mulWords (a b : Word) : Word := wrap16 (s16 a * s16 b)

/-- AND (R140), bit by bit. -/
def andWords (a b : Word) : Word := a &&& b

/-- OR (R141), bit by bit. -/
def orWords (a b : Word) : Word := a ||| b

/-- EOR (R142), bit by bit. -/
def eorWords (a b : Word) : Word := a ^^^ b

/-- What DIV (`isMod` false) or MOD (`isMod` true) gives on a zero divisor under a policy (R134, U1). -/
def divideByZero (p : Config.DivzPolicy) (isMod : Bool) (a : Word) : AluResult :=
  match p with
  | .fault => .trap
  | .stuck => .stuck .stuckDivision
  | .anyValue => .value (Config.freeDivision isMod a)
  | .zero => .value 0x0000
  | .allOnes => .value 0xFFFF
  | .dividend => .value a

/-- DIV (R133): the truncated quotient, wrapped; -32768 / -1 is 0x8000. -/
def divWords (p : Config.DivzPolicy) (a b : Word) : AluResult :=
  if s16 b = 0 then divideByZero p false a else .value (wrap16 (divmod (s16 a) (s16 b)).1)

/-- MOD (R135): the remainder that pairs with DIV's quotient. -/
def modWords (p : Config.DivzPolicy) (a b : Word) : AluResult :=
  if s16 b = 0 then divideByZero p true a else .value (wrap16 (divmod (s16 a) (s16 b)).2)

/-! ## Shifts (spec/44_shift.md) -/

/-- SLA by `n` positions (R150, R151): `wrap16(s16(v) * 2^n)`; from 16 up every bit is shifted out. -/
def shiftLeftArith (v : Word) (n : Nat) : Word :=
  if n < 16 then wrap16 (s16 v * 2 ^ n) else 0x0000

/-- SRA by `n` positions (R150, R152): `floor(s16(v) / 2^n)`; from 16 up copies of the sign. -/
def shiftRightArith (v : Word) (n : Nat) : Word :=
  if n < 16 then wrap16 (s16 v / 2 ^ n) else if s16 v < 0 then 0xFFFF else 0x0000

/-- SLL by `n` positions (R150, R153): `wrap16(u16(v) * 2^n)`. -/
def shiftLeftLogical (v : Word) (n : Nat) : Word :=
  if n < 16 then wrap16 (u16 v * 2 ^ n) else 0x0000

/-- SRL by `n` positions (R150, R154): `floor(u16(v) / 2^n)`. -/
def shiftRightLogical (v : Word) (n : Nat) : Word :=
  if n < 16 then wrap16 (u16 v / 2 ^ n) else 0x0000

/-- What a policy makes of a shift count. -/
inductive ShiftCount where
  /-- Shift by that many positions. -/
  | positions (n : Nat)
  /-- ArithmeticFault. -/
  | trap
  /-- One unconstrained word. -/
  | free
  /-- No successor. -/
  | stuck
  deriving DecidableEq, Repr

/-- The shift count: the whole cell, read as signed (R150), under a policy (U2). -/
def shiftCount (p : Config.ShiftPolicy) (c : Word) : ShiftCount :=
  match p with
  | .iterateFault => if s16 c < 0 then .trap else .positions c.toNat
  | .mask4 => .positions (c.toNat % 16)
  | .mask5 => .positions (c.toNat % 32)
  | .anyValue => if c.toNat < 16 then .positions c.toNat else .free
  | .stuck => if s16 c < 0 then .stuck else .positions c.toNat

/-- A shift of `v` by the cell `c`, `f` being the shift by a number of positions. -/
def shiftWords (p : Config.ShiftPolicy) (m : Mnemonic) (f : Word → Nat → Word) (v c : Word) : AluResult :=
  match shiftCount p c with
  | .positions n => .value (f v n)
  | .trap => .trap
  | .free => .value (Config.freeShift m.opc v c)
  | .stuck => .stuck .stuckShift

end Sys2Proof.Machine
end

