-- ==== Sys2Proof/Machine/Flags.lean ====
section
/-! DEFINITION. The flag register: who writes it and what the conditional jumps read of it (R26, R27, R175). FR is one
word holding the last result, not a set of flag bits; there is no carry and no overflow flag (R136). -/

namespace Sys2Proof.Machine

/-- A result goes to `GR[gr]` and to FR (R27). -/
def writeResult (r : Reg) (v : Word) (s : State) : State := setFr v (writeReg r v s)

/-- The condition zero (R27): all 16 bits are 0. -/
def frZero (fr : Word) : Bool := fr == 0x0000

/-- The condition negative (R27): `s16(FR) < 0`, that is `FR[15] = 1`. -/
def frNegative (fr : Word) : Bool := decide (s16 fr < 0)

/-- The condition positive (R27): neither. -/
def frPositive (fr : Word) : Bool := !frNegative fr && !frZero fr

/-- What a jump tests (R170 to R174). -/
inductive JumpCond where
  /-- JMP. -/
  | always
  /-- JPZ: `s16(FR) >= 0`. -/
  | plusOrZero
  /-- JMI: `s16(FR) < 0`. -/
  | minus
  /-- JNZ: `FR != 0`. -/
  | nonZero
  /-- JZE: `FR = 0`. -/
  | zero
  deriving DecidableEq, Repr

/-- Whether a jump is taken for a value of FR (R175). -/
def JumpCond.taken (c : JumpCond) (fr : Word) : Bool :=
  match c with
  | .always => true
  | .plusOrZero => decide (0 ≤ s16 fr)
  | .minus => frNegative fr
  | .nonZero => !frZero fr
  | .zero => frZero fr

end Sys2Proof.Machine
end

