-- ==== Sys2Proof/Machine/Shapes.lean ====
section
/-! DEFINITION. The shapes the meanings share: the field check every instruction begins with (R102), and the
register-memory, compare and jump skeletons of R107. -/

namespace Sys2Proof.Machine

/-- The field check of R102 and R74, made for every instruction before anything else: with both fields in 0 to 4 the
instruction goes on with the registers they name; else IllegalInstruction with its address and Word 0 (R221). DEDUCED
(log entry 7): Word 0 is put together from the fields, since `exec` has no other word. -/
def withFields (m : Mnemonic) (gr xr : Nibble) (s : State) (k : Reg → Reg → StepResult) : StepResult :=
  match Reg.ofField gr, Reg.ofField xr with
  | some r, some x => k r x
  | _, _ => .next (raiseFault .illegalInstruction s.pc (word0Of m.opc gr xr) s)

/-- A result-producing instruction `GR[gr] {op}= Mem[EA]` (R27, R136): the operand check comes before any write (R106,
R225), so that a fault leaves all but the fault record and `halted` as it was (R223). -/
def resultOp (m : Mnemonic) (f : Word → Word → AluResult) (gr xr : Nibble) (adr : Word) (s : State) : StepResult :=
  withFields m gr xr s fun r x =>
    match f (readReg r s) (memRead (effectiveAddress x adr s) s) with
    | .value v => .next (setPc (npc m s) (writeResult r v s))
    | .trap => .next (raiseFault .arithmeticFault s.pc (word0Of m.opc gr xr) s)
    | .stuck reason => .fault reason

/-- A comparison (spec/45_compare.md): the difference goes to FR alone. -/
def compareOp (m : Mnemonic) (f : Word → Word → Word) (gr xr : Nibble) (adr : Word) (s : State) : StepResult :=
  withFields m gr xr s fun r x =>
    .next (setPc (npc m s) (setFr (f (readReg r s) (memRead (effectiveAddress x adr s) s)) s))

/-- A jump (R175): to `EA` itself if the condition holds of FR, else on to `NPC`. -/
def jumpOp (m : Mnemonic) (c : JumpCond) (gr xr : Nibble) (adr : Word) (s : State) : StepResult :=
  withFields m gr xr s fun _ x =>
    .next (setPc (if c.taken s.fr then effectiveAddress x adr s else npc m s) s)

end Sys2Proof.Machine
end

