-- ==== Sys2Proof/Machine/Arithmetic.lean ====
section
/-! DEFINITION. ADD, SUB, MUL, DIV, MOD (spec/42_arithmetic.md). -/

namespace Sys2Proof.Machine

/-- ADD (R130). -/
def execAdd (gr xr : Nibble) (adr : Word) (s : State) : StepResult :=
  resultOp .add (AluResult.always addWords) gr xr adr s

/-- SUB (R131). -/
def execSub (gr xr : Nibble) (adr : Word) (s : State) : StepResult :=
  resultOp .sub (AluResult.always subWords) gr xr adr s

/-- MUL (R132). -/
def execMul (gr xr : Nibble) (adr : Word) (s : State) : StepResult :=
  resultOp .mul (AluResult.always mulWords) gr xr adr s

/-- DIV (R133, R134). -/
def execDiv (gr xr : Nibble) (adr : Word) (s : State) : StepResult :=
  resultOp .div (divWords divzPolicy) gr xr adr s

/-- MOD (R135, R134). -/
def execMod (gr xr : Nibble) (adr : Word) (s : State) : StepResult :=
  resultOp .mod (modWords divzPolicy) gr xr adr s

end Sys2Proof.Machine
end

