-- ==== Sys2Proof/Machine/Compare.lean ====
section
/-! DEFINITION. CPA, CPL (spec/45_compare.md). Each by its own pseudocode, as R162 asks. -/

namespace Sys2Proof.Machine

/-- CPA (R160). -/
def execCpa (gr xr : Nibble) (adr : Word) (s : State) : StepResult :=
  compareOp .cpa subWords gr xr adr s

/-- CPL (R161). -/
def execCpl (gr xr : Nibble) (adr : Word) (s : State) : StepResult :=
  compareOp .cpl subWordsUnsigned gr xr adr s

end Sys2Proof.Machine
end

