-- ==== Sys2Proof/Machine/Jump.lean ====
section
/-! DEFINITION. JMP, JPZ, JMI, JNZ, JZE (spec/46_jump.md). -/

namespace Sys2Proof.Machine

/-- JMP (R170). -/
def execJmp (gr xr : Nibble) (adr : Word) (s : State) : StepResult := jumpOp .jmp .always gr xr adr s

/-- JPZ (R171). -/
def execJpz (gr xr : Nibble) (adr : Word) (s : State) : StepResult := jumpOp .jpz .plusOrZero gr xr adr s

/-- JMI (R172). -/
def execJmi (gr xr : Nibble) (adr : Word) (s : State) : StepResult := jumpOp .jmi .minus gr xr adr s

/-- JNZ (R173). -/
def execJnz (gr xr : Nibble) (adr : Word) (s : State) : StepResult := jumpOp .jnz .nonZero gr xr adr s

/-- JZE (R174). -/
def execJze (gr xr : Nibble) (adr : Word) (s : State) : StepResult := jumpOp .jze .zero gr xr adr s

end Sys2Proof.Machine
end

