-- ==== Sys2Proof/Machine/LoadStore.lean ====
section
/-! DEFINITION. LD, ST, LEA (spec/41_load_store.md). -/

namespace Sys2Proof.Machine

/-- LD (R120): `GR[gr] <- Mem[EA]`; FR is not written. -/
def execLd (gr xr : Nibble) (adr : Word) (s : State) : StepResult :=
  withFields .ld gr xr s fun r x =>
    .next (setPc (npc .ld s) (writeReg r (memRead (effectiveAddress x adr s) s) s))

/-- ST (R121): `Mem[EA] <- GR[gr]`; FR is not written. -/
def execSt (gr xr : Nibble) (adr : Word) (s : State) : StepResult :=
  withFields .st gr xr s fun r x =>
    .next (setPc (npc .st s) (memWrite (effectiveAddress x adr s) (readReg r s) s))

/-- LEA (R122): `GR[gr] <- EA`, `FR <- EA`; no memory operand is read. -/
def execLea (gr xr : Nibble) (adr : Word) (s : State) : StepResult :=
  withFields .lea gr xr s fun r x =>
    .next (setPc (npc .lea s) (writeResult r (effectiveAddress x adr s) s))

end Sys2Proof.Machine
end

