-- ==== Sys2Proof/Machine/Logic.lean ====
section
/-! DEFINITION. AND, OR, EOR (spec/43_logic.md). -/

namespace Sys2Proof.Machine

/-- AND (R140). -/
def execAnd (gr xr : Nibble) (adr : Word) (s : State) : StepResult :=
  resultOp .and (AluResult.always andWords) gr xr adr s

/-- OR (R141). -/
def execOr (gr xr : Nibble) (adr : Word) (s : State) : StepResult :=
  resultOp .or (AluResult.always orWords) gr xr adr s

/-- EOR (R142). -/
def execEor (gr xr : Nibble) (adr : Word) (s : State) : StepResult :=
  resultOp .eor (AluResult.always eorWords) gr xr adr s

end Sys2Proof.Machine
end

