-- ==== Sys2Proof/Machine/Shift.lean ====
section
/-! DEFINITION. SLA, SRA, SLL, SRL (spec/44_shift.md). The count is the cell at the effective address (R150). -/

namespace Sys2Proof.Machine

/-- SLA (R151). -/
def execSla (gr xr : Nibble) (adr : Word) (s : State) : StepResult :=
  resultOp .sla (shiftWords shiftPolicy .sla shiftLeftArith) gr xr adr s

/-- SRA (R152). -/
def execSra (gr xr : Nibble) (adr : Word) (s : State) : StepResult :=
  resultOp .sra (shiftWords shiftPolicy .sra shiftRightArith) gr xr adr s

/-- SLL (R153). -/
def execSll (gr xr : Nibble) (adr : Word) (s : State) : StepResult :=
  resultOp .sll (shiftWords shiftPolicy .sll shiftLeftLogical) gr xr adr s

/-- SRL (R154). -/
def execSrl (gr xr : Nibble) (adr : Word) (s : State) : StepResult :=
  resultOp .srl (shiftWords shiftPolicy .srl shiftRightLogical) gr xr adr s

end Sys2Proof.Machine
end

