-- ==== Sys2Proof/Machine/Stack.lean ====
section
/-! DEFINITION. PUSH, POP, CALL, RET (spec/47_stack_call.md). Each line of a rule's pseudocode is one state here, in
the order the rule writes them (decision D20). None writes FR (R184). -/

namespace Sys2Proof.Machine

/-- PUSH (R180): the content of the cell at `EA` is pushed. -/
def execPush (gr xr : Nibble) (adr : Word) (s : State) : StepResult :=
  withFields .push gr xr s fun _ x =>
    let v := memRead (effectiveAddress x adr s) s
    let t := pushAddress s
    .next (setPc (npc .push s) (writeReg .sp t (memWrite t v s)))

/-- POP (R181): the register is written first and SP is read after that, so POP into GR4 leaves the popped word plus
one. -/
def execPop (gr xr : Nibble) (s : State) : StepResult :=
  withFields .pop gr xr s fun r _ =>
    let s₁ := writeReg r (memRead (readReg .sp s) s) s
    let s₂ := writeReg .sp (poppedSp s₁) s₁
    .next (setPc (npc .pop s) s₂)

/-- CALL (R182): the return address is pushed, and the target is read after that write from the cell at `EA`. -/
def execCall (gr xr : Nibble) (adr : Word) (s : State) : StepResult :=
  withFields .call gr xr s fun _ x =>
    let t := pushAddress s
    let s₁ := memWrite t (npc .call s) s
    let s₂ := setPc (memRead (effectiveAddress x adr s) s₁) s₁
    .next (writeReg .sp t s₂)

/-- RET (R183): PC is popped. -/
def execRet (gr xr : Nibble) (s : State) : StepResult :=
  withFields .ret gr xr s fun _ _ =>
    let s₁ := setPc (memRead (readReg .sp s) s) s
    .next (writeReg .sp (poppedSp s₁) s₁)

end Sys2Proof.Machine
end

