-- ==== Sys2Proof/Machine/System.lean ====
section
/-! DEFINITION. HALT, SYSCALL (spec/48_system.md). -/

namespace Sys2Proof.Machine

/-- HALT (R190): PC advances past it and `halted` is set; no fault record is written. -/
def execHalt (gr xr : Nibble) (s : State) : StepResult :=
  withFields .halt gr xr s fun _ _ => .next (setHalted true (setPc (npc .halt s) s))

/-- SYSCALL (R191) under an assignment of handlers: PC advances, then the registered handler is called with the id and
the advanced state; with none registered nothing else happens. The two halves of the id are checked like every
instruction's fields (R74, R79). -/
def syscallWith (handlers : Nat → Config.HandlerView → Byte → Config.HandlerReply) (id : Byte) (s : State) :
    StepResult :=
  withFields .syscall (Instr.syscall id).gr (Instr.syscall id).xr s fun _ _ =>
    .next (trapWith handlers id (setPc (npc .syscall s) s))

/-- SYSCALL (R191) with the handlers of the environment, which have no body (R192). -/
def execSyscall (id : Byte) (s : State) : StepResult := syscallWith Config.handler id s

end Sys2Proof.Machine
end

