-- ==== Sys2Proof/Machine/Dispatch.lean ====
section
/-! DEFINITION. `exec`: one arm per instruction (R107, the dispatch of R106). -/

namespace Sys2Proof.Machine

def exec (i : Instr) (s : State) : Host.Outcome State Fault Refusal :=
  match i with
  | .halt gr xr => Sys2Proof.Machine.execHalt gr xr s
  | .ld gr xr adr => Sys2Proof.Machine.execLd gr xr adr s
  | .st gr xr adr => Sys2Proof.Machine.execSt gr xr adr s
  | .lea gr xr adr => Sys2Proof.Machine.execLea gr xr adr s
  | .add gr xr adr => Sys2Proof.Machine.execAdd gr xr adr s
  | .sub gr xr adr => Sys2Proof.Machine.execSub gr xr adr s
  | .mul gr xr adr => Sys2Proof.Machine.execMul gr xr adr s
  | .div gr xr adr => Sys2Proof.Machine.execDiv gr xr adr s
  | .mod gr xr adr => Sys2Proof.Machine.execMod gr xr adr s
  | .and gr xr adr => Sys2Proof.Machine.execAnd gr xr adr s
  | .or gr xr adr => Sys2Proof.Machine.execOr gr xr adr s
  | .eor gr xr adr => Sys2Proof.Machine.execEor gr xr adr s
  | .sla gr xr adr => Sys2Proof.Machine.execSla gr xr adr s
  | .sra gr xr adr => Sys2Proof.Machine.execSra gr xr adr s
  | .sll gr xr adr => Sys2Proof.Machine.execSll gr xr adr s
  | .srl gr xr adr => Sys2Proof.Machine.execSrl gr xr adr s
  | .cpa gr xr adr => Sys2Proof.Machine.execCpa gr xr adr s
  | .cpl gr xr adr => Sys2Proof.Machine.execCpl gr xr adr s
  | .jmp gr xr adr => Sys2Proof.Machine.execJmp gr xr adr s
  | .jpz gr xr adr => Sys2Proof.Machine.execJpz gr xr adr s
  | .jmi gr xr adr => Sys2Proof.Machine.execJmi gr xr adr s
  | .jnz gr xr adr => Sys2Proof.Machine.execJnz gr xr adr s
  | .jze gr xr adr => Sys2Proof.Machine.execJze gr xr adr s
  | .push gr xr adr => Sys2Proof.Machine.execPush gr xr adr s
  | .pop gr xr => Sys2Proof.Machine.execPop gr xr s
  | .call gr xr adr => Sys2Proof.Machine.execCall gr xr adr s
  | .ret gr xr => Sys2Proof.Machine.execRet gr xr s
  | .syscall id => Sys2Proof.Machine.execSyscall id s

end Sys2Proof.Machine
end

