-- ==== Sys2Proof/Machine/Fetch.lean ====
section
/-! DEFINITION. Fetch (R101) and where a test places an instruction. -/

namespace Sys2Proof.Machine

/-- `PC + 1` modulo 65536, the address of Word 1 and of the side read (R53, R55). -/
def word1Address (s : State) : Word := wrap16 (u16 s.pc + 1)

/-- Word 0 of the step: the cell at PC (R101). -/
def fetchWord0 (s : State) : Word := memRead s.pc s

/-- The side read of the step: the cell at PC + 1, read also for one-word opcodes (R55, R101). -/
def fetchWord1 (s : State) : Word := memRead (word1Address s) s

/-- The state with a table word's Word 0 at PC and its Word 1 (bits from 16 up) at PC + 1; `halted` is cleared, without
which no fetch happens (R100). -/
def placeInstruction (s : State) (nbits w : Nat) : State :=
  let v := w % 2 ^ nbits
  setHalted false
    (memWrite (word1Address s) (BitVec.ofNat 16 (v / 65536)) (memWrite s.pc (BitVec.ofNat 16 v) s))

end Sys2Proof.Machine
end

