-- ==== Sys2Proof/Machine/Step.lean ====
section
/-! DEFINITION. One step (spec/40_step_cycle.md R100, R107). -/

namespace Sys2Proof.Machine

/-- `Step` (R107): nothing when halted (R100); else fetch and side read (R101), the field and opcode checks (R102, R103),
which raise IllegalInstruction with PC and Word 0 (R221), and the instruction's own arm (R106). -/
def step (s : State) : Host.Outcome State Fault Refusal :=
  if s.halted then .next s
  else
    match decode (fetchWord0 s) (fetchWord1 s) with
    | .ok i => exec i s
    | .error _ => .next (raiseFault .illegalInstruction s.pc (fetchWord0 s) s)

/-- The state with one instruction of the opcode table where the next step fetches. It stands for the loader's `IMAGE`
(log entry 1): bits of `w` from `nbits` up are 0, Word 1 follows Word 0. -/
def State.withFetchWord (s : State) (nbits w : Nat) : State := placeInstruction s nbits w

end Sys2Proof.Machine
end

