-- ==== Sys2Proof/Machine/Disassembler.lean ====
section
/-! DEFINITION. The instruction disassembler (spec/49_disassembler.md): a pure function of memory, a start address and a
count, over the decoder the engine uses (R200, R201). The texts are the spec's configuration of R203 (decision D12). -/

namespace Sys2Proof.Machine

/-! ## Texts (R203) -/

/-- The mnemonic in upper case (R203); SYSCALL's line uses its own spelling. -/
def mnemonicText : Mnemonic → String
  | .halt => "HALT"
  | .ld => "LD"
  | .st => "ST"
  | .lea => "LEA"
  | .add => "ADD"
  | .sub => "SUB"
  | .mul => "MUL"
  | .div => "DIV"
  | .mod => "MOD"
  | .and => "AND"
  | .or => "OR"
  | .eor => "EOR"
  | .sla => "SLA"
  | .sra => "SRA"
  | .sll => "SLL"
  | .srl => "SRL"
  | .cpa => "CPA"
  | .cpl => "CPL"
  | .jmp => "JMP"
  | .jpz => "JPZ"
  | .jmi => "JMI"
  | .jnz => "JNZ"
  | .jze => "JZE"
  | .push => "PUSH"
  | .pop => "POP"
  | .call => "CALL"
  | .ret => "RET"
  | .syscall => "syscall"

/-- `UNKNOWN_MARK` (R203). -/
def unknownMark : String := "unknown"

/-- One hexadecimal digit, upper case. -/
def hexDigit (n : Nat) : Char := if n < 10 then Char.ofNat (48 + n) else Char.ofNat (55 + n)

/-- `hex4`: `0x` and four upper-case hexadecimal digits of `u16(v)` (R203). -/
def hex4 (v : Word) : String :=
  let n := v.toNat
  "0x" ++ String.ofList [hexDigit (n / 4096 % 16), hexDigit (n / 256 % 16), hexDigit (n / 16 % 16), hexDigit (n % 16)]

/-- One decimal digit. -/
def decDigit (n : Nat) : Char := Char.ofNat (48 + n)

/-- `dec`: decimal without padding, for a number of up to three digits (fields 0 to 15, ids 0 to 255) (R203). -/
def dec (n : Nat) : String :=
  if n < 10 then String.ofList [decDigit n]
  else if n < 100 then String.ofList [decDigit (n / 10), decDigit (n % 10)]
  else String.ofList [decDigit (n / 100 % 10), decDigit (n / 10 % 10), decDigit (n % 10)]

/-- `GR<n>` (R203). -/
def registerText (f : Nibble) : String := "GR" ++ dec f.toNat

/-- The index register, printed when the field is not 0 (R202). -/
def indexText (xr : Nibble) : String := if xr = 0 then "" else ", " ++ registerText xr

/-! ## Lines (R202, R204, R208) -/

/-- The classes of R202. -/
inductive LineClass where
  | syscall
  | empty
  | pop
  | registerOperand
  | addressOnly
  deriving DecidableEq, Repr

/-- The class of a mnemonic (R202), with the parameter for CPL (R208). -/
def lineClass (cpl : Config.CplClass) (m : Mnemonic) : LineClass :=
  match m.format with
  | .S => .syscall
  | .N => .empty
  | .R => .pop
  | .A => .addressOnly
  | .RA =>
    match cpl, m with
    | .addressOnly, .cpl => .addressOnly
    | _, _ => .registerOperand

/-- The operand text, the part of a line the source fixes (R202); for SYSCALL it is the whole line. -/
def operandText (cpl : Config.CplClass) (m : Mnemonic) (gr xr : Nibble) (adr : Word) : String :=
  match lineClass cpl m with
  | .syscall => mnemonicText m ++ " " ++ dec (idField (word0Of m.opc gr xr)).toNat
  | .empty => ""
  | .pop => registerText gr
  | .registerOperand => registerText gr ++ ", " ++ hex4 adr ++ indexText xr
  | .addressOnly => hex4 adr ++ indexText xr

/-- The line of an instruction that is not unknown (R203). -/
def lineText (cpl : Config.CplClass) (m : Mnemonic) (gr xr : Nibble) (adr : Word) : String :=
  match lineClass cpl m with
  | .syscall => operandText cpl m gr xr adr
  | .empty => mnemonicText m
  | .pop | .registerOperand | .addressOnly => mnemonicText m ++ " " ++ operandText cpl m gr xr adr

/-- The check of R204 that an unknown line fails: an opcode above the highest defined one, or `gr` above 4, or (decision
D14) an opcode in the gap. `xr` is not checked. -/
def unknownLine (w0 : Word) : Bool :=
  decide (Mnemonic.syscall.opc.toNat < (opField w0).toNat) || !legalField (grField w0)
    || (Mnemonic.ofOpc (opField w0)).isNone

/-- One line at an address: its text, and the next line's address (R206), none after an unknown line (R204). -/
def renderLine (cpl : Config.CplClass) (mem : Memory) (a : Word) : String × Option Word :=
  let w0 := mem.read a
  let w1 := mem.read (wrap16 (u16 a + 1))
  if unknownLine w0 then (unknownMark, none)
  else
    match decodeFields w0 w1 with
    | .fields m gr xr adr => (lineText cpl m gr xr adr, some (wrap16 (u16 a + m.words)))
    | .undefined _ _ _ _ => (unknownMark, none)

/-- `Render` (R209) with the class of CPL as a parameter: `count` lines from an address, fewer if one is unknown. -/
def renderWith (cpl : Config.CplClass) (mem : Memory) (a : Word) : Nat → List String
  | 0 => []
  | n + 1 =>
    match renderLine cpl mem a with
    | (text, some next) => text :: renderWith cpl mem next n
    | (text, none) => [text]

/-- `Render` (R209) as bound. -/
def render (mem : Memory) (a : Word) (count : Nat) : List String := renderWith disasmCplClass mem a count

end Sys2Proof.Machine
end

