-- ==== Sys2Proof/Machine/HostPort.lean ====
section
/-! DEFINITION. The host's moves on the block, made only between steps: the ports of spec/00_scope.md R11 and the moves
of spec/60_exceptions.md R236 to R240. -/

namespace Sys2Proof.Machine

/-! ## Reset (spec/70_reset_and_hazards.md) -/

/-- The state after `reset(IMAGE, START_PC, HOOK)` (R250). Nothing of the state before it is left (R254), but
`fault_addr` and `fault_word` are unspecified (R45; log entry 3). -/
def resetState (image : List Word) (startPc : Word) (hook : Option Nat) : State :=
  { State.reset with mem := Memory.ofImage 0 image, pc := startPc, hook := hook }

/-- The reset port: it refuses an image longer than memory and a start address outside it (R251, decision D18). -/
def resetPort (image : List Word) (startPc : Nat) (hook : Option Nat) : StepResult :=
  if Config.memWords < image.length then .refused .imageTooLong
  else if Config.memWords ≤ startPc then .refused .startPcOutOfRange
  else .next (resetState image (BitVec.ofNat 16 startPc) hook)

/-! ## Run and the debugger's batches (R111, R237) -/

/-- `Run` (R111) under fuel (DESIGN CHOICE, log entry 8): `Step` until halted. With no fuel left the run has not ended. -/
def runFor : Nat → State → StepResult
  | 0, s => .next s
  | n + 1, s =>
    if s.halted then .next s
    else
      match step s with
      | .next s' => runFor n s'
      | .fault r => .fault r
      | .refused r => .refused r

/-- The debugger's `step n` (R237): up to `n` steps, stopping early when halted, with the number of steps executed,
which the host counts. -/
def stepBatch : Nat → State → StepResult × Nat
  | 0, s => (.next s, 0)
  | n + 1, s =>
    if s.halted then (.next s, 0)
    else
      match step s with
      | .next s' => let (r, k) := stepBatch n s'; (r, k + 1)
      | .fault r => (.fault r, 1)
      | .refused r => (.refused r, 1)

/-! ## Reads and writes of the state (R11, R237) -/

/-- A direct host write of a general register (R11). -/
def hostWriteReg (r : Reg) (v : Word) (s : State) : State := writeReg r v s

/-- The debugger's `jump` (R237): PC and nothing else; `halted` is not cleared. -/
def hostWritePc (t : Word) (s : State) : State := setPc t s

/-- A direct host write of FR (R11). -/
def hostWriteFr (v : Word) (s : State) : State := setFr v s

/-- A direct host write of `halted`, which may leave the halted state (R240). -/
def hostWriteHalted (b : Bool) (s : State) : State := setHalted b s

/-- The debugger's `alter` (R237): one cell. -/
def hostWriteCell (a v : Word) (s : State) : State := memWrite a v s

/-- The debugger's `dMem` (R237): `n` cells from an address, bounded by memory size. -/
def dumpCells (s : State) (a : Word) (n : Nat) : List Word :=
  (List.range (min n (Config.memWords - a.toNat))).map fun k => s.mem.lookup (a.toNat + k)

/-- The status code of the register dump, a function of FR (R238, U13: taken literally). -/
def statusCode (fr : Word) : String :=
  if 0 < s16 fr then "00" else if s16 fr < 0 then "10" else "01"

/-- The render port (R200): it refuses a start address outside memory (U12). -/
def renderPort (s : State) (start count : Nat) : Except Refusal (List String) :=
  if Config.memWords ≤ start then .error .renderStartOutOfRange
  else .ok (render s.mem (BitVec.ofNat 16 start) count)

/-! ## Snapshot and restore (R239) -/

/-- A snapshot: the whole state, fault record included (decision D10). -/
def snapshot (s : State) : State := s

/-- The debugger's `clear`: the whole state comes back, `HOOK` is kept as it is (R239). -/
def restore (snap s : State) : State := { snap with hook := s.hook }

/-! ## The moves as one type (R236, R237) -/

/-- A move of the host that changes the state. Reading the state and `render` change nothing (R200, R236). -/
inductive HostMove where
  | reset (image : List Word) (startPc : Nat) (hook : Option Nat)
  | step
  /-- `run`, with the fuel the model needs. -/
  | run (fuel : Nat)
  | writeReg (r : Reg) (v : Word)
  | jump (t : Word)
  | writeFr (v : Word)
  | writeHalted (b : Bool)
  | alter (a v : Word)
  | clear (snap : State)
  deriving DecidableEq, Repr

/-- The effect of a host move (R236). -/
def hostMove (m : HostMove) (s : State) : StepResult :=
  match m with
  | .reset image startPc hook => resetPort image startPc hook
  | .step => step s
  | .run fuel => runFor fuel s
  | .writeReg r v => .next (hostWriteReg r v s)
  | .jump t => .next (hostWritePc t s)
  | .writeFr v => .next (hostWriteFr v s)
  | .writeHalted b => .next (hostWriteHalted b s)
  | .alter a v => .next (hostWriteCell a v s)
  | .clear snap => .next (restore snap s)

end Sys2Proof.Machine
end

