-- ==== Sys2Proof/Safety.lean ====
section
/-! DEFINITION. The terms claims use: the invariant of a state, a run that takes no fault, the end of a run. -/

namespace Sys2Proof

open Sys2Proof.Machine

/-- The invariant every step keeps: memory is in its canonical form, and a fault that is recorded has halted the
machine (R223, R228). It is an invariant of steps; a host write of `halted` can end its second half (R240). -/
structure Inv (s : State) : Prop where
  memory_canonical : s.mem.wf
  fault_halts : s.faultCause ≠ .none → s.halted = true

/-- The run has ended (R13). -/
abbrev Ended (s : State) : Prop := s.halted = true

/-- The run has ended by a fault (R13, R223). -/
abbrev Faulted (s : State) : Prop := s.halted = true ∧ s.faultCause ≠ .none

/-- Everything a program can see or change through an instruction: the register file, PC, FR and every cell. -/
def SameProgramState (s t : State) : Prop :=
  (∀ r, readReg r t = readReg r s) ∧ t.pc = s.pc ∧ t.fr = s.fr ∧ ∀ a, memRead a t = memRead a s

/-- `n` steps from a state, none of which takes a fault (R253 asks programs for this). -/
def FaultFree : Nat → State → Prop
  | 0, s => s.faultCause = .none
  | n + 1, s => s.faultCause = .none ∧ ∃ t, step s = .next t ∧ FaultFree n t

end Sys2Proof
end

