-- ==== Sys2Proof/Certificates/Slice0/Obligations.lean ====
section
/-! DEFINITION. The statements for the provers. First the terms they share: what of the state is the same, what one
instruction writes, and where it writes. -/

namespace Sys2Proof

open Sys2Proof.Machine

/-! ## Terms -/

/-- Every general register reads as before. -/
def SameRegs (s t : State) : Prop := ∀ q, readReg q t = readReg q s

/-- Every cell of memory reads as before. -/
def SameMemory (s t : State) : Prop := ∀ a, memRead a t = memRead a s

/-- The fault record and the handler are as before. -/
def SameRecord (s t : State) : Prop :=
  t.faultCause = s.faultCause ∧ t.faultAddr = s.faultAddr ∧ t.faultWord = s.faultWord ∧ t.hook = s.hook

/-- `halted`, the fault record and the handler are as before. -/
def SameControl (s t : State) : Prop := t.halted = s.halted ∧ SameRecord s t

/-- Register `r` holds `v`, and every other general register reads as before. -/
def OnlyReg (s t : State) (r : Reg) (v : Word) : Prop := readReg r t = v ∧ ∀ q, q ≠ r → readReg q t = readReg q s

/-- The cell `a` holds `v`, and every other cell reads as before. -/
def OnlyCell (s t : State) (a v : Word) : Prop := memRead a t = v ∧ ∀ b, b ≠ a → memRead b t = memRead b s

/-- A fault was taken (R223): the record names the cause, the address and the word, `halted` is set, and every register,
PC, FR, every cell and the handler are as before. -/
def FaultTaken (s t : State) (cause : FaultCause) (word : Word) : Prop :=
  t.faultCause = cause ∧ t.faultAddr = s.pc ∧ t.faultWord = word ∧ t.halted = true ∧ t.hook = s.hook ∧
    SameProgramState s t

/-- `exec i s` completes and writes the result `v` to register `r` and to FR; PC is two words on; every other register,
every cell and the control state are as before. -/
def GivesResult (i : Instr) (s : State) (r : Reg) (v : Word) : Prop :=
  ∃ t, exec i s = .next t ∧ OnlyReg s t r v ∧ t.fr = v ∧ t.pc = s.pc + 2 ∧ SameMemory s t ∧ SameControl s t

/-- `exec i s` completes and writes `v` to FR; PC is two words on; all else is as before. -/
def GivesFlag (i : Instr) (s : State) (v : Word) : Prop :=
  ∃ t, exec i s = .next t ∧ SameRegs s t ∧ t.fr = v ∧ t.pc = s.pc + 2 ∧ SameMemory s t ∧ SameControl s t

/-- `exec i s` completes and sets PC to `p`; all else is as before. -/
def GoesTo (i : Instr) (s : State) (p : Word) : Prop :=
  ∃ t, exec i s = .next t ∧ SameRegs s t ∧ t.fr = s.fr ∧ t.pc = p ∧ SameMemory s t ∧ SameControl s t

/-- `exec i s` takes a fault. -/
def TakesFault (i : Instr) (s : State) (cause : FaultCause) (word : Word) : Prop :=
  ∃ t, exec i s = .next t ∧ FaultTaken s t cause word

/-- The fifteen result-producing instructions (R27). -/
def Instr.resultProducing (i : Instr) : Bool :=
  match i.mnemonic with
  | .add | .sub | .mul | .div | .mod | .and | .or | .eor | .sla | .sra | .sll | .srl | .lea | .cpa | .cpl => true
  | .halt | .ld | .st | .jmp | .jpz | .jmi | .jnz | .jze | .push | .pop | .call | .ret | .syscall => false

/-- The registers an instruction that completes may write: the one `gr` names for those with a destination, and SP for
the stack instructions. For SYSCALL the handler may write any. -/
def Instr.mayWriteReg (i : Instr) (q : Reg) : Bool :=
  match i.mnemonic with
  | .ld | .lea | .add | .sub | .mul | .div | .mod | .and | .or | .eor | .sla | .sra | .sll | .srl =>
    Reg.ofField i.gr == some q
  | .pop => Reg.ofField i.gr == some q || q == .sp
  | .push | .call | .ret => q == .sp
  | .st | .cpa | .cpl | .jmp | .jpz | .jmi | .jnz | .jze | .halt => false
  | .syscall => true

/-- The one cell an instruction that completes stores to, if it stores: computed by the functions the meanings use,
on the state before the instruction. -/
def Instr.storedCell (i : Instr) (s : State) : Option Word :=
  match i.mnemonic with
  | .st => (Reg.ofField i.xr).map fun x => effectiveAddress x i.adr s
  | .push | .call => some (pushAddress s)
  | .halt | .ld | .lea | .add | .sub | .mul | .div | .mod | .and | .or | .eor | .sla | .sra | .sll | .srl => none
  | .cpa | .cpl | .jmp | .jpz | .jmi | .jnz | .jze | .pop | .ret | .syscall => none

/-- `0x` and the four upper-case hexadecimal digits of a word, from the highest (R203). -/
def upperHex4 (v : Word) : String :=
  let digits := ['0', '1', '2', '3', '4', '5', '6', '7', '8', '9', 'A', 'B', 'C', 'D', 'E', 'F']
  "0x" ++ String.ofList ([4096, 256, 16, 1].map fun k => digits.getD (v.toNat / k % 16) '0')

/-- The seventeen instructions of the register-operand class (R202, R208) with their mnemonics. -/
def registerOperandTexts : List (Mnemonic × String) :=
  [(.ld, "LD"), (.st, "ST"), (.lea, "LEA"), (.add, "ADD"), (.sub, "SUB"), (.mul, "MUL"), (.div, "DIV"), (.mod, "MOD"),
    (.and, "AND"), (.or, "OR"), (.eor, "EOR"), (.sla, "SLA"), (.sra, "SRA"), (.sll, "SLL"), (.srl, "SRL"),
    (.cpa, "CPA"), (.cpl, "CPL")]

/-- The seven instructions of the address-only class (R202) with their mnemonics. -/
def addressOnlyTexts : List (Mnemonic × String) :=
  [(.jmp, "JMP"), (.jpz, "JPZ"), (.jmi, "JMI"), (.jnz, "JNZ"), (.jze, "JZE"), (.push, "PUSH"), (.call, "CALL")]

end Sys2Proof

open Sys2Proof Sys2Proof.Machine

/-! ## Readings, encoding and decoding -/

/-- R8: the two readings of a word and the wrap to 16 bits. -/
def Obligations.WordReadings : Prop :=
  ∀ v : Word, 0 ≤ u16 v ∧ u16 v < 65536 ∧ (s16 v = if v.getLsbD 15 = false then u16 v else u16 v - 65536) ∧
    ∀ n : Int, (u16 (wrap16 n) - n) % 65536 = 0

/-- R71: Word 0 is `op` in bits 15 to 8, `gr` in 7 to 4, `xr` in 3 to 0, each read as an unsigned number, and nothing
else; the source's example reads as op 0x10, gr 1, xr 0. -/
def Obligations.Word0HasThreeFields : Prop :=
  (∀ w : Word, (opField w).toNat = w.toNat / 256 ∧ (grField w).toNat = w.toNat / 16 % 16 ∧
      (xrField w).toNat = w.toNat % 16 ∧ (idField w).toNat = w.toNat % 256 ∧
      word0Of (opField w) (grField w) (xrField w) = w) ∧
    opField 0x1010 = 0x10 ∧ grField 0x1010 = 1 ∧ xrField 0x1010 = 0 ∧
    decode 0x1010 0x0005 = .ok (.ld 1 0 0x0005)

/-- A few words written out from R76 (its numbers are the spec's decision D1), one or more of each format, decode to the
instruction they stand for. -/
def Obligations.SampleWordsDecode : Prop :=
  decode 0x1312 0x0020 = .ok (.add 1 2 0x0020) ∧ decode 0x2634 0x0001 = .ok (.push 3 4 0x0001) ∧
    decode 0x2720 0x1234 = .ok (.pop 2 0) ∧ decode 0x2900 0x0000 = .ok (.ret 0 0) ∧
    decode 0x0044 0xFFFF = .ok (.halt 4 4) ∧ decode 0x2A44 0x0000 = .ok (.syscall 0x44) ∧
    decode 0x1E00 0x0041 = .ok (.srl 0 0 0x0041) ∧ decode 0x2030 0x0045 = .ok (.cpl 3 0 0x0045) ∧
    decode 0x2A05 0x0000 = .error (.malformedField 0 5) ∧ decode 0x1350 0x0000 = .error (.malformedField 5 0) ∧
    decode 0x0100 0x0000 = .error (.undefinedOpcode 0x01) ∧ decode 0x2B00 0x0000 = .error (.undefinedOpcode 0x2B)

/-- Tier 3: decode and encode agree on every well-formed instruction of all 28, with any word after a one-word form,
and the number of words is the one of R77. The opcode numbers are the spec's decision D1. That `encode` writes the
fields a format ignores as the instruction holds them is the model's choice, log entry 9 (R81's encoder, which writes 0
there, is `assemble`). -/
def Obligations.DecodeOfEncode : Prop :=
  ∀ (i : Instr) (w : Word), i.WellFormed →
    ∃ w0, (encode i).head? = some w0 ∧ decode w0 ((encode i).getD 1 w) = .ok i ∧
      (encode i).length = i.mnemonic.words

/-- The other direction: a word pair that decodes gives a well-formed instruction whose words are the words decoded, so
no bit of them is dropped but the word after a one-word form. The opcode numbers are the spec's decision D1. That the
fields a format ignores are kept, so that 0x2634 comes back as 0x2634, is the model's choice, log entry 9 (R81's
encoder, which gives 0x2604, is `assemble`). -/
def Obligations.EncodeOfDecode : Prop :=
  ∀ (w0 w1 : Word) (i : Instr), decode w0 w1 = .ok i →
    i.WellFormed ∧ encode i = if i.mnemonic.words = 2 then [w0, w1] else [w0]

/-- Which words are legal (R78, with the opcode numbers of the spec's decision D1): exactly those with a defined
opcode byte and both fields in 0 to 4; else the decoder rejects. -/
def Obligations.LegalWordsExactly : Prop :=
  ∀ w0 w1 : Word, (∃ i, decode w0 w1 = .ok i) ↔
    ((opField w0 = 0x00 ∨ (0x10 ≤ (opField w0).toNat ∧ (opField w0).toNat ≤ 0x2A)) ∧
      (grField w0).toNat ≤ 4 ∧ (xrField w0).toNat ≤ 4)

/-- R81's encoder, with the opcode numbers of the spec's decision D1: Word 0 is `OPC * 256 + gr * 16 + xr`, Word 1 is
`adr`, and the fields a format does not use are 0. -/
def Obligations.AssembledWords : Prop :=
  ∀ i : Instr, i.WellFormed →
    (assemble i = if i.mnemonic.words = 2 then [i.clearUnused.word0, i.adr] else [i.clearUnused.word0]) ∧
      i.clearUnused.word0.toNat =
        i.mnemonic.opc.toNat * 256
          + (match i.mnemonic.format with | .RA | .R | .S => i.gr.toNat | .A | .N => 0) * 16
          + (match i.mnemonic.format with | .RA | .A | .S => i.xr.toNat | .R | .N => 0) ∧
      decode i.clearUnused.word0 i.adr = .ok i.clearUnused

/-! ## Load, store, load effective address -/

/-- R21, R104: which field value names which register, none above 4; and the effective address, modulo 65536 (the spec's
decision D3), with `xr` 0 no index. -/
def Obligations.EffectiveAddressSum : Prop :=
  (∀ f : Nibble, (Reg.ofField f = some .gr0 ↔ f = 0) ∧ (Reg.ofField f = some .gr1 ↔ f = 1) ∧
      (Reg.ofField f = some .gr2 ↔ f = 2) ∧ (Reg.ofField f = some .gr3 ↔ f = 3) ∧
      (Reg.ofField f = some .gr4 ↔ f = 4) ∧ (Reg.ofField f = none ↔ 4 < f.toNat)) ∧
    (∀ s : State, readReg .gr0 s = s.gr0 ∧ readReg .gr1 s = s.gr1 ∧ readReg .gr2 s = s.gr2 ∧ readReg .gr3 s = s.gr3 ∧
      readReg .gr4 s = s.gr4) ∧
    ∀ (xr : Nibble) (x : Reg) (adr : Word) (s : State), Reg.ofField xr = some x →
      (xr = 0 → effectiveAddress x adr s = adr) ∧
      (xr ≠ 0 → (effectiveAddress x adr s).toNat = (adr.toNat + (readReg x s).toNat) % 65536)

/-- R120. -/
def Obligations.LdLoadsTheCell : Prop :=
  ∀ (gr xr : Nibble) (adr : Word) (r x : Reg) (s : State), Reg.ofField gr = some r → Reg.ofField xr = some x →
    encode (.ld gr xr adr) = [word0Of 0x10 gr xr, adr] ∧
      ∃ t, exec (.ld gr xr adr) s = .next t ∧ OnlyReg s t r (memRead (effectiveAddress x adr s) s) ∧
        t.pc = s.pc + 2 ∧ t.fr = s.fr ∧ SameMemory s t ∧ SameControl s t

/-- R121. -/
def Obligations.StStoresTheRegister : Prop :=
  ∀ (gr xr : Nibble) (adr : Word) (r x : Reg) (s : State), Reg.ofField gr = some r → Reg.ofField xr = some x →
    encode (.st gr xr adr) = [word0Of 0x11 gr xr, adr] ∧
      ∃ t, exec (.st gr xr adr) s = .next t ∧ OnlyCell s t (effectiveAddress x adr s) (readReg r s) ∧
        SameRegs s t ∧ t.pc = s.pc + 2 ∧ t.fr = s.fr ∧ SameControl s t

/-- R122. -/
def Obligations.LeaGivesTheAddress : Prop :=
  ∀ (gr xr : Nibble) (adr : Word) (r x : Reg) (s : State), Reg.ofField gr = some r → Reg.ofField xr = some x →
    encode (.lea gr xr adr) = [word0Of 0x12 gr xr, adr] ∧
      GivesResult (.lea gr xr adr) s r (effectiveAddress x adr s)

/-! ## Arithmetic, logic, shifts, comparisons -/

/-- R130, R131, R132: the exact integer result of the signed operands, wrapped to 16 bits. -/
def Obligations.AddSubMulWrap : Prop :=
  ∀ (gr xr : Nibble) (adr : Word) (r x : Reg) (s : State), Reg.ofField gr = some r → Reg.ofField xr = some x →
    let a := (readReg r s).toInt
    let b := (memRead (effectiveAddress x adr s) s).toInt
    (encode (.add gr xr adr) = [word0Of 0x13 gr xr, adr] ∧
        GivesResult (.add gr xr adr) s r (BitVec.ofInt 16 (a + b))) ∧
      (encode (.sub gr xr adr) = [word0Of 0x14 gr xr, adr] ∧
        GivesResult (.sub gr xr adr) s r (BitVec.ofInt 16 (a - b))) ∧
      (encode (.mul gr xr adr) = [word0Of 0x15 gr xr, adr] ∧
        GivesResult (.mul gr xr adr) s r (BitVec.ofInt 16 (a * b)))

/-- DIV and MOD with a divisor that is not 0 (R133, R135; the rounding is the spec's decision D5): the quotient rounded
toward zero and the remainder with the sign of the dividend, wrapped. -/
def Obligations.DivModTruncate : Prop :=
  ∀ (gr xr : Nibble) (adr : Word) (r x : Reg) (s : State), Reg.ofField gr = some r → Reg.ofField xr = some x →
    memRead (effectiveAddress x adr s) s ≠ 0 →
    let a := (readReg r s).toInt
    let b := (memRead (effectiveAddress x adr s) s).toInt
    GivesResult (.div gr xr adr) s r (BitVec.ofInt 16 (a.tdiv b)) ∧
      GivesResult (.mod gr xr adr) s r (BitVec.ofInt 16 (a.tmod b))

/-- DIV and MOD by zero (R134; the spec's decision D6): ArithmeticFault and no other write. -/
def Obligations.DivModByZeroFault : Prop :=
  ∀ (gr xr : Nibble) (adr : Word) (r x : Reg) (s : State), Reg.ofField gr = some r → Reg.ofField xr = some x →
    memRead (effectiveAddress x adr s) s = 0 →
    TakesFault (.div gr xr adr) s .arithmeticFault (word0Of 0x16 gr xr) ∧
      TakesFault (.mod gr xr adr) s .arithmeticFault (word0Of 0x17 gr xr)

/-- U1 and U2: with a divisor that is not 0 every value of `DIVZ_POLICY` gives the same result, and with a count in 0
to 15 every value of `SHIFT_POLICY` does. -/
def Obligations.PoliciesAgreeOnOrdinaryOperands : Prop :=
  (∀ (p q : Config.DivzPolicy) (a b : Word), b ≠ 0 →
      divWords p a b = divWords q a b ∧ modWords p a b = modWords q a b) ∧
    ∀ (p q : Config.ShiftPolicy) (m : Mnemonic) (f : Word → Nat → Word) (v c : Word), c.toNat ≤ 15 →
      shiftWords p m f v c = shiftWords q m f v c

/-- R140, R141, R142: bit by bit. -/
def Obligations.LogicBitByBit : Prop :=
  ∀ (gr xr : Nibble) (adr : Word) (r x : Reg) (s : State), Reg.ofField gr = some r → Reg.ofField xr = some x →
    let a := readReg r s
    let b := memRead (effectiveAddress x adr s) s
    (encode (.and gr xr adr) = [word0Of 0x18 gr xr, adr] ∧
        ∃ v : Word, (∀ k, v.getLsbD k = (a.getLsbD k && b.getLsbD k)) ∧ GivesResult (.and gr xr adr) s r v) ∧
      (encode (.or gr xr adr) = [word0Of 0x19 gr xr, adr] ∧
        ∃ v : Word, (∀ k, v.getLsbD k = (a.getLsbD k || b.getLsbD k)) ∧ GivesResult (.or gr xr adr) s r v) ∧
      (encode (.eor gr xr adr) = [word0Of 0x1A gr xr, adr] ∧
        ∃ v : Word, (∀ k, v.getLsbD k = (a.getLsbD k ^^ b.getLsbD k)) ∧ GivesResult (.eor gr xr adr) s r v)

/-- The four shifts for every count that is not negative, 0 to 32767 (R150 to R154; decision D7): the formulas of the
rules' pseudocode, over the integers, with no bound on the count. -/
def Obligations.ShiftsByEveryCount : Prop :=
  ∀ (gr xr : Nibble) (adr : Word) (r x : Reg) (s : State), Reg.ofField gr = some r → Reg.ofField xr = some x →
    let v := readReg r s
    let c := memRead (effectiveAddress x adr s) s
    0 ≤ c.toInt →
      GivesResult (.sla gr xr adr) s r (BitVec.ofInt 16 (v.toInt * 2 ^ c.toNat)) ∧
      GivesResult (.sra gr xr adr) s r (BitVec.ofInt 16 (v.toInt / 2 ^ c.toNat)) ∧
      GivesResult (.sll gr xr adr) s r (BitVec.ofNat 16 (v.toNat * 2 ^ c.toNat)) ∧
      GivesResult (.srl gr xr adr) s r (BitVec.ofNat 16 (v.toNat / 2 ^ c.toNat))

/-- The four shifts by a negative count (R150; decision D7): ArithmeticFault and no other write. -/
def Obligations.NegativeShiftCountFaults : Prop :=
  ∀ (gr xr : Nibble) (adr : Word) (r x : Reg) (s : State), Reg.ofField gr = some r → Reg.ofField xr = some x →
    (memRead (effectiveAddress x adr s) s).toInt < 0 →
      TakesFault (.sla gr xr adr) s .arithmeticFault (word0Of 0x1B gr xr) ∧
      TakesFault (.sra gr xr adr) s .arithmeticFault (word0Of 0x1C gr xr) ∧
      TakesFault (.sll gr xr adr) s .arithmeticFault (word0Of 0x1D gr xr) ∧
      TakesFault (.srl gr xr adr) s .arithmeticFault (word0Of 0x1E gr xr)

/-- R160, R161: the difference goes to FR and nowhere else. -/
def Obligations.ComparisonsSetFlagOnly : Prop :=
  ∀ (gr xr : Nibble) (adr : Word) (r x : Reg) (s : State), Reg.ofField gr = some r → Reg.ofField xr = some x →
    let a := readReg r s
    let b := memRead (effectiveAddress x adr s) s
    (encode (.cpa gr xr adr) = [word0Of 0x1F gr xr, adr] ∧
        GivesFlag (.cpa gr xr adr) s (BitVec.ofInt 16 (a.toInt - b.toInt))) ∧
      (encode (.cpl gr xr adr) = [word0Of 0x20 gr xr, adr] ∧
        GivesFlag (.cpl gr xr adr) s (BitVec.ofInt 16 ((a.toNat : Int) - (b.toNat : Int))))

/-- R155, R162, which the spec marks as derived: SLA and SLL do the same on every state, for every register, where the
count is not negative; CPA and CPL do the same on every state. -/
def Obligations.TwinInstructionsAgree : Prop :=
  ∀ (gr xr : Nibble) (adr : Word) (r x : Reg) (s : State), Reg.ofField gr = some r → Reg.ofField xr = some x →
    (0 ≤ (memRead (effectiveAddress x adr s) s).toInt →
      ∃ t, exec (.sla gr xr adr) s = .next t ∧ exec (.sll gr xr adr) s = .next t) ∧
      ∃ t, exec (.cpa gr xr adr) s = .next t ∧ exec (.cpl gr xr adr) s = .next t

/-! ## Jumps -/

/-- R170 to R174: the target is the effective address; a jump not taken goes on two words; nothing but PC changes. -/
def Obligations.JumpsGoOnTheirCondition : Prop :=
  ∀ (gr xr : Nibble) (adr : Word) (r x : Reg) (s : State), Reg.ofField gr = some r → Reg.ofField xr = some x →
    let ea := effectiveAddress x adr s
    (encode (.jmp gr xr adr) = [word0Of 0x21 gr xr, adr] ∧ GoesTo (.jmp gr xr adr) s ea) ∧
      (encode (.jpz gr xr adr) = [word0Of 0x22 gr xr, adr] ∧
        GoesTo (.jpz gr xr adr) s (if s.fr.getLsbD 15 = false then ea else s.pc + 2)) ∧
      (encode (.jmi gr xr adr) = [word0Of 0x23 gr xr, adr] ∧
        GoesTo (.jmi gr xr adr) s (if s.fr.getLsbD 15 = true then ea else s.pc + 2)) ∧
      (encode (.jnz gr xr adr) = [word0Of 0x24 gr xr, adr] ∧
        GoesTo (.jnz gr xr adr) s (if s.fr ≠ 0 then ea else s.pc + 2)) ∧
      (encode (.jze gr xr adr) = [word0Of 0x25 gr xr, adr] ∧
        GoesTo (.jze gr xr adr) s (if s.fr = 0 then ea else s.pc + 2))

/-- R26: FR's sign and whether it is zero are all that a conditional jump takes from it: two values of FR that agree in
both send every instruction but SYSCALL to the same address. -/
def Obligations.JumpsReadSignAndZeroOnly : Prop :=
  ∀ (i : Instr) (s t t' : State) (f : Word), i.mnemonic ≠ .syscall →
    (s16 f < 0 ↔ s16 s.fr < 0) → (f = 0 ↔ s.fr = 0) →
    exec i s = .next t → exec i (setFr f s) = .next t' → t'.pc = t.pc ∧ SameRegs t t' ∧ SameMemory t t'

/-! ## Stack and calls -/

/-- R180: PUSH stores the cell at the effective address below the top. -/
def Obligations.PushStoresAndDecrements : Prop :=
  ∀ (gr xr : Nibble) (adr : Word) (r x : Reg) (s : State), Reg.ofField gr = some r → Reg.ofField xr = some x →
    encode (.push gr xr adr) = [word0Of 0x26 gr xr, adr] ∧ pushAddress s = readReg .gr4 s - 1 ∧
      ∃ t, exec (.push gr xr adr) s = .next t ∧
        OnlyCell s t (pushAddress s) (memRead (effectiveAddress x adr s) s) ∧
        OnlyReg s t .gr4 (readReg .gr4 s - 1) ∧ t.pc = s.pc + 2 ∧ t.fr = s.fr ∧ SameControl s t

/-- POP (R181; into GR4 the spec's decision D20): the top goes to the register, SP goes up by one; into GR4 the popped
word plus one is left. -/
def Obligations.PopLoadsAndIncrements : Prop :=
  ∀ (gr xr : Nibble) (r x : Reg) (s : State), Reg.ofField gr = some r → Reg.ofField xr = some x →
    ∃ t, exec (.pop gr xr) s = .next t ∧
      (r ≠ .gr4 → readReg r t = memRead (readReg .gr4 s) s ∧ readReg .gr4 t = readReg .gr4 s + 1) ∧
      (r = .gr4 → readReg .gr4 t = memRead (readReg .gr4 s) s + 1) ∧
      (∀ q, q ≠ r → q ≠ .gr4 → readReg q t = readReg q s) ∧
      t.pc = s.pc + 1 ∧ t.fr = s.fr ∧ SameMemory s t ∧ SameControl s t

/-- CALL (R182; the order of its write and read is the spec's decision D20): the return address is pushed and PC is the
content of the cell at the effective address, read after the push. -/
def Obligations.CallPushesAndJumps : Prop :=
  ∀ (gr xr : Nibble) (adr : Word) (r x : Reg) (s : State), Reg.ofField gr = some r → Reg.ofField xr = some x →
    ∃ t, exec (.call gr xr adr) s = .next t ∧ OnlyCell s t (pushAddress s) (s.pc + 2) ∧
      OnlyReg s t .gr4 (readReg .gr4 s - 1) ∧
      (t.pc = if effectiveAddress x adr s = readReg .gr4 s - 1 then s.pc + 2
        else memRead (effectiveAddress x adr s) s) ∧
      t.fr = s.fr ∧ SameControl s t

/-- R183: RET pops PC. -/
def Obligations.RetPopsThePc : Prop :=
  ∀ (gr xr : Nibble) (r x : Reg) (s : State), Reg.ofField gr = some r → Reg.ofField xr = some x →
    encode (.ret gr xr) = [word0Of 0x29 gr xr] ∧
      ∃ t, exec (.ret gr xr) s = .next t ∧ t.pc = memRead (readReg .gr4 s) s ∧
        OnlyReg s t .gr4 (readReg .gr4 s + 1) ∧ t.fr = s.fr ∧ SameMemory s t ∧ SameControl s t

/-- S7 (R180, R181): PUSH then POP into a register other than GR4 puts the pushed word there and leaves SP as it was. -/
def Obligations.PushThenPopRoundTrip : Prop :=
  ∀ (g1 x1 g2 x2 : Nibble) (adr : Word) (r1 x r x2' : Reg) (s : State),
    Reg.ofField g1 = some r1 → Reg.ofField x1 = some x → Reg.ofField g2 = some r → Reg.ofField x2 = some x2' →
    r ≠ .gr4 →
    ∃ t u, exec (.push g1 x1 adr) s = .next t ∧ exec (.pop g2 x2) t = .next u ∧
      OnlyReg s u r (memRead (effectiveAddress x adr s) s) ∧ readReg .gr4 u = readReg .gr4 s ∧ u.fr = s.fr

/-- S8 (R182, R183; the order in CALL is decision D20): after a CALL, a RET in any state that has SP and the top of
the stack as the CALL left them goes to the instruction after the CALL, with SP as before it. -/
def Obligations.CallThenRetRoundTrip : Prop :=
  ∀ (g1 x1 g2 x2 : Nibble) (adr : Word) (r1 x r2 x2' : Reg) (s u : State),
    Reg.ofField g1 = some r1 → Reg.ofField x1 = some x → Reg.ofField g2 = some r2 → Reg.ofField x2 = some x2' →
    ∃ t, exec (.call g1 x1 adr) s = .next t ∧
      (readReg .gr4 u = readReg .gr4 t → memRead (readReg .gr4 t) u = memRead (readReg .gr4 t) t →
        ∃ v, exec (.ret g2 x2) u = .next v ∧ v.pc = s.pc + 2 ∧ readReg .gr4 v = readReg .gr4 s)

/-! ## System -/

/-- R190: HALT sets `halted`, PC goes past it, no fault record is written, and no further step does anything (the
spec's decision D9); a cell that holds 0x0000 decodes as HALT. -/
def Obligations.HaltSetsHalted : Prop :=
  (∀ (gr xr : Nibble) (r x : Reg) (s : State), Reg.ofField gr = some r → Reg.ofField xr = some x →
    encode (.halt gr xr) = [word0Of 0x00 gr xr] ∧
      ∃ t, exec (.halt gr xr) s = .next t ∧ t.halted = true ∧ t.pc = s.pc + 1 ∧ SameRegs s t ∧ t.fr = s.fr ∧
        SameMemory s t ∧ SameRecord s t ∧ step t = .next t) ∧
    ∀ w, decode 0x0000 w = .ok (.halt 0 0)

/-- SYSCALL with no handler (R191): a legal id advances PC by one and changes nothing else. -/
def Obligations.SyscallWithoutHandler : Prop :=
  ∀ (id : Byte) (s : State), id.toNat / 16 ≤ 4 → id.toNat % 16 ≤ 4 → s.hook = none →
    (encode (.syscall id)).map BitVec.toNat = [0x2A00 + id.toNat] ∧ GoesTo (.syscall id) s (s.pc + 1)

/-- SYSCALL with a handler (R191, R192; decision D16; its form is log entry 2), for every handler: it is called once,
with the id, on the state whose PC is already advanced; every register, PC, FR and `halted` are as it leaves them, a
cell holds the last word it wrote there and else what it held, and the fault record and the handler are as before. -/
def Obligations.SyscallCallsTheHandler : Prop :=
  ∀ (id : Byte) (s : State) (n : Nat), id.toNat / 16 ≤ 4 → id.toNat % 16 ≤ 4 → s.hook = some n →
    let reply := Config.handler n { s.handlerView with pc := s.pc + 1 } id
    ∃ t, exec (.syscall id) s = .next t ∧
      t.gr0 = reply.gr0 ∧ t.gr1 = reply.gr1 ∧ t.gr2 = reply.gr2 ∧ t.gr3 = reply.gr3 ∧ t.gr4 = reply.gr4 ∧
      t.pc = reply.pc ∧ t.fr = reply.fr ∧ t.halted = reply.halted ∧ SameRecord s t ∧
      ∀ a, memRead a t = (reply.writes.reverse.lookup a).getD (memRead a s)

/-! ## Faults and the step -/

/-- Every instruction with a field above 4, whatever its format, takes IllegalInstruction in `exec` (R74;
log entry 7). -/
def Obligations.IllegalFieldFaultsInExec : Prop :=
  ∀ (i : Instr) (s : State), 4 < i.gr.toNat ∨ 4 < i.xr.toNat → TakesFault i s .illegalInstruction i.word0

/-- R102, at the level of the step: a field above 4 in the word fetched raises IllegalInstruction whatever the opcode,
defined or not. -/
def Obligations.IllegalFieldFaults : Prop :=
  ∀ s : State, s.halted = false →
    4 < (grField (memRead s.pc s)).toNat ∨ 4 < (xrField (memRead s.pc s)).toNat →
    ∃ t, step s = .next t ∧ FaultTaken s t .illegalInstruction (memRead s.pc s)

/-- R103: an opcode byte outside the defined set (the spec's decision D1) raises IllegalInstruction, PC unchanged. -/
def Obligations.UndefinedOpcodeFaults : Prop :=
  ∀ s : State, s.halted = false →
    (opField (memRead s.pc s) ≠ 0x00 ∧
      ((opField (memRead s.pc s)).toNat < 0x10 ∨ 0x2A < (opField (memRead s.pc s)).toNat)) →
    ∃ t, step s = .next t ∧ FaultTaken s t .illegalInstruction (memRead s.pc s)

/-- A step runs the decoded instruction: the words at PC and PC + 1 (modulo 65536, the spec's decision D3) are
decoded, and the step is `exec` of what they decode to, with nothing around it. -/
def Obligations.StepRunsTheDecodedInstruction : Prop :=
  ∀ (s : State) (i : Instr), s.halted = false → decode (memRead s.pc s) (memRead (s.pc + 1) s) = .ok i →
    i.WellFormed ∧ step s = exec i s

/-- R100 (the spec's decision D9): a step of a halted machine does nothing. -/
def Obligations.HaltedStepDoesNothing : Prop :=
  ∀ s : State, s.halted = true → step s = .next s

/-- Whole machine (decisions D6, D7 and D10 for the faults; that a SYSCALL with a handler goes on is decision D16 and
log entry 2): from every state a step answers a next state; and either it leaves the fault record alone, or it took a
fault at PC with the word there, with every register, PC, FR and every cell as before (R29, R108, R223). -/
def Obligations.EveryStepIsCleanOrPreciseFault : Prop :=
  ∀ s : State, ∃ t, step s = .next t ∧
    (SameRecord s t ∨
      (s.halted = false ∧
        (FaultTaken s t .illegalInstruction (memRead s.pc s) ∨ FaultTaken s t .arithmeticFault (memRead s.pc s))))

/-- Which steps raise ArithmeticFault (R222; decisions D6 and D7; that a handler cannot is D16): a step that does not
start from that cause and ends in it ran DIV, MOD or a shift. -/
def Obligations.ArithmeticFaultOnlyFromSix : Prop :=
  ∀ (s t : State), s.faultCause ≠ .arithmeticFault → step s = .next t → t.faultCause = .arithmeticFault →
    ∃ i, decode (memRead s.pc s) (memRead (s.pc + 1) s) = .ok i ∧
      i.mnemonic ∈ [Mnemonic.div, .mod, .sla, .sra, .sll, .srl]

/-- R13 (that a handler may is decision D16): a step that ends the run ran HALT, took a fault, or called a handler. -/
def Obligations.OnlyHaltFaultOrHandlerHalts : Prop :=
  ∀ (s t : State), s.halted = false → step s = .next t → t.halted = true →
    (∃ i, decode (memRead s.pc s) (memRead (s.pc + 1) s) = .ok i ∧ i.mnemonic = .halt) ∨
      (∃ cause, cause ≠ FaultCause.none ∧ FaultTaken s t cause (memRead s.pc s)) ∨
      (∃ i, decode (memRead s.pc s) (memRead (s.pc + 1) s) = .ok i ∧ i.mnemonic = .syscall ∧ s.hook ≠ none)

/-- R27, S6: which instructions write FR. A result-producing instruction that takes no fault leaves FR equal to the new
`GR[gr]`, but for CPA and CPL; one that takes a fault leaves FR as it was, with all else a fault leaves (R223; for
ArithmeticFault decisions D6 and D7); every other instruction but SYSCALL leaves FR as it was. With a field above 4 the
fault is IllegalInstruction (R74, R102), and that `exec` then records Word 0 put together from the fields is log
entry 7. -/
def Obligations.FlagWrittenByFifteenOnly : Prop :=
  ∀ (i : Instr) (s t : State), exec i s = .next t →
    (i.resultProducing = false → i.mnemonic ≠ .syscall → t.fr = s.fr) ∧
      (i.resultProducing = true → i.mnemonic ≠ .cpa → i.mnemonic ≠ .cpl →
        (SameControl s t ∧ t.pc = s.pc + 2 ∧ ∃ r, Reg.ofField i.gr = some r ∧ t.fr = readReg r t) ∨
          ∃ cause, cause ≠ FaultCause.none ∧ FaultTaken s t cause i.word0)

/-- Register frame (the column "written by" of spec/10_state.md section 1, R109; for ArithmeticFault decisions D6 and
D7): an instruction changes no register but those it may write. -/
def Obligations.RegisterFrame : Prop :=
  ∀ (i : Instr) (s t : State) (q : Reg), exec i s = .next t → i.mayWriteReg q = false →
    readReg q t = readReg q s

/-- Memory frame (R54): an instruction but SYSCALL changes no cell but the one it stores to, at the address the meanings
compute. -/
def Obligations.MemoryFrame : Prop :=
  ∀ (i : Instr) (s t : State) (a : Word), exec i s = .next t → i.mnemonic ≠ .syscall → i.storedCell s ≠ some a →
    memRead a t = memRead a s

/-- R74, R79: the fields a format ignores may hold any legal value and the instruction behaves the same. That an
instruction keeps these fields is the model's choice, log entry 9. -/
def Obligations.IgnoredFieldsDoNotMatter : Prop :=
  ∀ (i : Instr) (s : State), i.WellFormed → i.clearUnused.WellFormed ∧ exec i.clearUnused s = exec i s

/-- R29 (decision D10; for SYSCALL with a handler decision D16 and log entry 2, by which the handler does not see the
record and is a function of what it sees): no instruction reads the fault record: a step from a state that differs
only in it ends with the same registers, PC, FR, memory and `halted`. -/
def Obligations.FaultRecordIsNotRead : Prop :=
  ∀ (s t : State) (cause : FaultCause) (addr word : Word), step s = .next t →
    ∃ t', step { s with faultCause := cause, faultAddr := addr, faultWord := word } = .next t' ∧
      SameProgramState t t' ∧ t'.halted = t.halted ∧ t'.hook = t.hook

/-- R28 (a handler cannot change it: decision D16 and log entry 2): the handler is given at reset and no step changes
it. -/
def Obligations.StepKeepsTheHandler : Prop :=
  ∀ s t : State, step s = .next t → t.hook = s.hook

/-- Tier 3: every step keeps the invariant: memory in its canonical form (log entry 4), whatever the handler writes,
and a recorded fault has halted the machine. -/
def Obligations.StepKeepsInv : Prop :=
  ∀ s t : State, Inv s → step s = .next t → Inv t

/-- The state after reset (log entry 1) meets the invariant; so does the state after any reset the port accepts. -/
def Obligations.ResetMeetsInv : Prop :=
  Inv State.reset ∧ ∀ (image : List Word) (startPc : Nat) (hook : Option Nat) (t : State),
    resetPort image startPc hook = .next t → Inv t

/-! ## Memory -/

/-- The model's memory (log entry 4): two memories in canonical form that read the same at every address are equal
data. -/
def Obligations.CanonicalMemoryIsUnique : Prop :=
  ∀ m n : Memory, m.wf → n.wf → (∀ a, m.read a = n.read a) → m = n

/-- R60, which the spec marks as derived (the wrap of PC + 1 is decision D3): a store is seen by the fetch of a later
step at that address, as Word 0 and as Word 1. -/
def Obligations.FetchSeesStores : Prop :=
  ∀ (gr xr : Nibble) (adr : Word) (r x : Reg) (s t : State) (p : Word),
    Reg.ofField gr = some r → Reg.ofField xr = some x → exec (.st gr xr adr) s = .next t →
      (p = effectiveAddress x adr s → fetchWord0 (setPc p t) = readReg r s) ∧
      (p + 1 = effectiveAddress x adr s → fetchWord1 (setPc p t) = readReg r s)

/-! ## Reset and the host -/

/-- R41: GR4 is 0xFC00 after every reset, and the first PUSH or CALL writes the cell at 0xFBFF: from the state reset
leaves, both complete, and that cell alone changes, to the pushed word. -/
def Obligations.ResetStackPointer : Prop :=
  ∀ t : State,
    (t = State.reset ∨ ∃ (image : List Word) (startPc : Nat) (hook : Option Nat),
      resetPort image startPc hook = .next t) →
    readReg .sp t = 0xFC00 ∧
      ∀ (gr xr : Nibble) (adr : Word) (r x : Reg), Reg.ofField gr = some r → Reg.ofField xr = some x →
        (∃ u, exec (.push gr xr adr) t = .next u ∧ OnlyCell t u 0xFBFF (memRead (effectiveAddress x adr t) t)) ∧
          ∃ u, exec (.call gr xr adr) t = .next u ∧ OnlyCell t u 0xFBFF (t.pc + 2)

/-- R250, R251 with R40 to R45: what the reset port leaves, and what it refuses. GR0 to GR3 and FR 0 are the spec's
decision D4, the refusals its decision D18. -/
def Obligations.ResetPortLeaves : Prop :=
  ∀ (image : List Word) (startPc : Nat) (hook : Option Nat),
    (image.length ≤ 65536 → startPc ≤ 65535 →
      ∃ t, resetPort image startPc hook = .next t ∧ t.gr0 = 0 ∧ t.gr1 = 0 ∧ t.gr2 = 0 ∧ t.gr3 = 0 ∧
        t.gr4 = 0xFC00 ∧ t.fr = 0 ∧ t.pc.toNat = startPc ∧ t.halted = false ∧ t.faultCause = .none ∧
        t.hook = hook ∧ ∀ a, memRead a t = image.getD a.toNat 0) ∧
      (65536 < image.length ∨ 65535 < startPc → ∃ why, resetPort image startPc hook = .refused why)

/-- Every host move keeps memory in its canonical form (log entry 4; what a handler can do to memory is log entry 2),
if a snapshot it restores has it. -/
def Obligations.HostMovesKeepCanonicalMemory : Prop :=
  ∀ (m : HostMove) (s t : State), s.mem.wf → (∀ snap, m = .clear snap → snap.mem.wf) → hostMove m s = .next t →
    t.mem.wf

/-- R111, under fuel (log entry 8), with handlers that are functions (log entry 2): a run that has ended does not go
on, and more fuel gives the same end. -/
def Obligations.RunStopsWhenHalted : Prop :=
  ∀ (n k : Nat) (s t : State), runFor n s = .next t → t.halted = true → runFor (n + k) s = .next t

/-- R239, R240 (decisions D9 and D10): a restore brings back every register, PC, FR, `halted`, the fault record and
memory of the snapshot, and keeps the handler; `jump` leaves `halted` as it is. -/
def Obligations.RestoreAndJump : Prop :=
  ∀ (s u : State) (p : Word),
    SameProgramState s (restore (snapshot s) u) ∧ (restore (snapshot s) u).halted = s.halted ∧
      (restore (snapshot s) u).faultCause = s.faultCause ∧ (restore (snapshot s) u).faultAddr = s.faultAddr ∧
      (restore (snapshot s) u).faultWord = s.faultWord ∧ (restore (snapshot s) u).hook = u.hook ∧
      (hostWritePc p u).pc = p ∧ SameRegs u (hostWritePc p u) ∧ SameMemory u (hostWritePc p u) ∧
      SameControl u (hostWritePc p u) ∧ (hostWritePc p u).fr = u.fr

/-- R238: the status code of the register dump. -/
def Obligations.StatusCodeOfFlag : Prop :=
  ∀ fr : Word, (0 < fr.toInt → statusCode fr = "00") ∧ (fr.toInt < 0 → statusCode fr = "10") ∧
    (fr.toInt = 0 → statusCode fr = "01")

/-! ## The disassembler -/

/-- R201, R206 (the texts are the spec's decision D12, CPL's class D13): where the engine's decoder accepts the words,
the disassembler prints the line of that instruction, with the raw operand, and goes on after its words. -/
def Obligations.RenderFollowsTheDecoder : Prop :=
  ∀ (m : Memory) (a : Word) (n : Nat) (i : Instr), decode (m.read a) (m.read (a + 1)) = .ok i →
    render m a (n + 1) =
      lineText .registerOperand i.mnemonic i.gr i.xr (m.read (a + 1)) ::
        render m (a + BitVec.ofNat 16 i.mnemonic.words) n

/-- R204 (its third clause the spec's decision D14; the texts are D12, the class of CPL D13): an unknown line ends the
output, and `xr` is not checked. -/
def Obligations.RenderStopsAtUnknown : Prop :=
  ∀ (m : Memory) (a : Word) (n : Nat),
    (4 < (grField (m.read a)).toNat ∨ 0x2A < (opField (m.read a)).toNat ∨ Mnemonic.ofOpc (opField (m.read a)) = none →
      render m a (n + 1) = ["unknown"]) ∧
    ((grField (m.read a)).toNat ≤ 4 → ∀ mn, Mnemonic.ofOpc (opField (m.read a)) = some mn →
      render m a (n + 1) =
        lineText .registerOperand mn (grField (m.read a)) (xrField (m.read a)) (m.read (a + 1)) ::
          render m (a + BitVec.ofNat 16 mn.words) n)

/-- R200, C9 (the text "unknown" is decision D12, the gap D14): at most `count` lines, and exactly `count` when no
line is unknown. -/
def Obligations.RenderLineCount : Prop :=
  ∀ (m : Memory) (a : Word) (n : Nat), (render m a n).length ≤ n ∧
    ("unknown" ∉ render m a n → (render m a n).length = n)

/-- S10 (R202; the mnemonics are the spec's decision D12): the operand text of a HALT or RET word is empty whatever
its fields hold, so the line is the mnemonic alone. -/
def Obligations.HaltAndRetLinesHaveNoOperand : Prop :=
  ∀ (m : Memory) (a : Word) (n : Nat), (grField (m.read a)).toNat ≤ 4 →
    (opField (m.read a) = 0x00 → render m a (n + 1) = "HALT" :: render m (a + 1) n) ∧
      (opField (m.read a) = 0x29 → render m a (n + 1) = "RET" :: render m (a + 1) n)

/-- R202 with R203 and R208: what a line holds, class by class, for every value of the fields. The operand texts are the
source's; the mnemonics, the number formats and the rest of a line are the spec's decision D12, CPL's class D13. -/
def Obligations.LineTextsByClass : Prop :=
  ∀ (gr xr : Nibble) (adr : Word),
    let index := if xr = 0 then "" else ", GR" ++ toString xr.toNat
    lineText .registerOperand .syscall gr xr adr = "syscall " ++ toString (gr.toNat * 16 + xr.toNat) ∧
      lineText .registerOperand .halt gr xr adr = "HALT" ∧
      lineText .registerOperand .ret gr xr adr = "RET" ∧
      lineText .registerOperand .pop gr xr adr = "POP GR" ++ toString gr.toNat ∧
      (∀ p ∈ registerOperandTexts,
        lineText .registerOperand p.1 gr xr adr =
          p.2 ++ " GR" ++ toString gr.toNat ++ ", " ++ upperHex4 adr ++ index) ∧
      (∀ p ∈ addressOnlyTexts, lineText .registerOperand p.1 gr xr adr = p.2 ++ " " ++ upperHex4 adr ++ index) ∧
      lineText .addressOnly .cpl gr xr adr = "CPL " ++ upperHex4 adr ++ index
end

