-- ==== Sys2Proof/Laws/Encoding.lean ====
section
/-! SUPPORT. The small lemmas of the encoding: the fields of a Word 0 put together, and the opcode map both ways. -/

namespace Sys2Proof

/-- The number of a byte made of two nibbles. -/
theorem toNat_nibbles (gr xr : Nibble) : (gr ++ xr : Byte).toNat = gr.toNat * 16 + xr.toNat := by
  have h := Nat.shiftLeft_add_eq_or_of_lt (b := xr.toNat) (i := 4) xr.isLt gr.toNat
  show (gr ++ xr : BitVec (4 + 4)).toNat = _
  rw [BitVec.toNat_append, ← h, Nat.shiftLeft_eq]

/-- `w0 = op * 256 + gr * 16 + xr` (R81). -/
theorem toNat_word0Of (op : Byte) (gr xr : Nibble) :
    (word0Of op gr xr).toNat = op.toNat * 256 + gr.toNat * 16 + xr.toNat := by
  have h := Nat.shiftLeft_add_eq_or_of_lt (b := xr.toNat) (i := 4) xr.isLt (op ++ gr : BitVec (8 + 4)).toNat
  have h' := Nat.shiftLeft_add_eq_or_of_lt (b := gr.toNat) (i := 4) gr.isLt op.toNat
  show (op ++ gr ++ xr : BitVec (8 + 4 + 4)).toNat = _
  rw [BitVec.toNat_append, ← h, BitVec.toNat_append, ← h', Nat.shiftLeft_eq, Nat.shiftLeft_eq]
  omega

theorem toNat_opField (w : Word) : (opField w).toNat = w.toNat / 256 % 256 := by
  simp [opField, Nat.shiftRight_eq_div_pow]

theorem toNat_grField (w : Word) : (grField w).toNat = w.toNat / 16 % 16 := by
  simp [grField, Nat.shiftRight_eq_div_pow]

theorem toNat_xrField (w : Word) : (xrField w).toNat = w.toNat % 16 := by
  simp [xrField]

theorem toNat_idField (w : Word) : (idField w).toNat = w.toNat % 256 := by
  simp [idField]

@[simp] theorem opField_word0Of (op : Byte) (gr xr : Nibble) : opField (word0Of op gr xr) = op := by
  apply BitVec.eq_of_toNat_eq
  have := op.isLt
  have := gr.isLt
  have := xr.isLt
  rw [toNat_opField, toNat_word0Of]
  omega

@[simp] theorem grField_word0Of (op : Byte) (gr xr : Nibble) : grField (word0Of op gr xr) = gr := by
  apply BitVec.eq_of_toNat_eq
  have := gr.isLt
  have := xr.isLt
  rw [toNat_grField, toNat_word0Of]
  omega

@[simp] theorem xrField_word0Of (op : Byte) (gr xr : Nibble) : xrField (word0Of op gr xr) = xr := by
  apply BitVec.eq_of_toNat_eq
  have := xr.isLt
  rw [toNat_xrField, toNat_word0Of]
  omega

@[simp] theorem idField_word0Of (op : Byte) (gr xr : Nibble) : idField (word0Of op gr xr) = gr ++ xr := by
  apply BitVec.eq_of_toNat_eq
  have := gr.isLt
  have := xr.isLt
  rw [toNat_idField, toNat_word0Of, toNat_nibbles]
  omega

/-- Word 0 is its three fields and nothing else (R71). -/
theorem word0Of_fields (w : Word) : word0Of (opField w) (grField w) (xrField w) = w := by
  apply BitVec.eq_of_toNat_eq
  have := w.isLt
  rw [toNat_word0Of, toNat_opField, toNat_grField, toNat_xrField]
  omega

/-- The high half of a byte made of two nibbles (R79). -/
@[simp] theorem high_nibbles (gr xr : Nibble) : BitVec.extractLsb' 4 4 (gr ++ xr : Byte) = gr := by
  apply BitVec.eq_of_toNat_eq
  have := gr.isLt
  have := xr.isLt
  rw [BitVec.extractLsb'_toNat, toNat_nibbles, Nat.shiftRight_eq_div_pow]
  omega

/-- The low half of a byte made of two nibbles (R79). -/
@[simp] theorem low_nibbles (gr xr : Nibble) : BitVec.extractLsb' 0 4 (gr ++ xr : Byte) = xr := by
  apply BitVec.eq_of_toNat_eq
  have := xr.isLt
  rw [BitVec.extractLsb'_toNat, toNat_nibbles, Nat.shiftRight_eq_div_pow]
  omega

/-- A byte is its two halves (R79). -/
theorem nibbles_of_byte (id : Byte) : (BitVec.extractLsb' 4 4 id ++ BitVec.extractLsb' 0 4 id : Byte) = id := by
  apply BitVec.eq_of_toNat_eq
  have := id.isLt
  rw [toNat_nibbles, BitVec.extractLsb'_toNat, BitVec.extractLsb'_toNat, Nat.shiftRight_eq_div_pow,
    Nat.shiftRight_eq_div_pow]
  omega

/-- R74 in numbers. -/
theorem legalField_iff (f : Nibble) : legalField f = true ↔ f.toNat ≤ 4 := decide_eq_true_iff

theorem legalField_eq_false_iff (f : Nibble) : legalField f = false ↔ 4 < f.toNat := by
  rw [← Bool.not_eq_true, legalField_iff, not_le]

/-- A mnemonic's opcode byte decodes to it: no two rows of R76 share a byte. -/
@[simp] theorem ofOpc_opc (m : Mnemonic) : Mnemonic.ofOpc m.opc = some m := by
  cases m <;> rfl

/-- A byte decodes only to a mnemonic whose opcode byte it is. -/
theorem opc_of_ofOpc {op : Byte} {m : Mnemonic} (h : Mnemonic.ofOpc op = some m) : m.opc = op := by
  simpa using List.find?_some h

@[simp] theorem mnemonic_instr (m : Mnemonic) (gr xr : Nibble) (adr : Word) : (m.instr gr xr adr).mnemonic = m := by
  cases m <;> rfl

@[simp] theorem gr_instr (m : Mnemonic) (gr xr : Nibble) (adr : Word) : (m.instr gr xr adr).gr = gr := by
  cases m <;> first | rfl | exact high_nibbles gr xr

@[simp] theorem xr_instr (m : Mnemonic) (gr xr : Nibble) (adr : Word) : (m.instr gr xr adr).xr = xr := by
  cases m <;> first | rfl | exact low_nibbles gr xr

/-- The decoder on a Word 0 put together from legal fields and a defined opcode. -/
theorem decode_word0Of {m : Mnemonic} {gr xr : Nibble} (hg : legalField gr = true) (hx : legalField xr = true)
    (w1 : Word) : decode (word0Of m.opc gr xr) w1 = .ok (m.instr gr xr w1) := by
  simp [decode, decodeFields, hg, hx]

end Sys2Proof
end

