-- ==== Sys2Proof/Laws/State.lean ====
section
/-! SUPPORT. One lemma per field per update of the state, so that no later proof unfolds a record update, and the laws
of register reads and writes. -/

namespace Sys2Proof.Machine

/-! ## setPc -/

@[simp] theorem setPc_gr0 (t : Word) (s : State) : (setPc t s).gr0 = s.gr0 := rfl
@[simp] theorem setPc_gr1 (t : Word) (s : State) : (setPc t s).gr1 = s.gr1 := rfl
@[simp] theorem setPc_gr2 (t : Word) (s : State) : (setPc t s).gr2 = s.gr2 := rfl
@[simp] theorem setPc_gr3 (t : Word) (s : State) : (setPc t s).gr3 = s.gr3 := rfl
@[simp] theorem setPc_gr4 (t : Word) (s : State) : (setPc t s).gr4 = s.gr4 := rfl
@[simp] theorem setPc_pc (t : Word) (s : State) : (setPc t s).pc = t := rfl
@[simp] theorem setPc_fr (t : Word) (s : State) : (setPc t s).fr = s.fr := rfl
@[simp] theorem setPc_halted (t : Word) (s : State) : (setPc t s).halted = s.halted := rfl
@[simp] theorem setPc_faultCause (t : Word) (s : State) : (setPc t s).faultCause = s.faultCause := rfl
@[simp] theorem setPc_faultAddr (t : Word) (s : State) : (setPc t s).faultAddr = s.faultAddr := rfl
@[simp] theorem setPc_faultWord (t : Word) (s : State) : (setPc t s).faultWord = s.faultWord := rfl
@[simp] theorem setPc_mem (t : Word) (s : State) : (setPc t s).mem = s.mem := rfl
@[simp] theorem setPc_hook (t : Word) (s : State) : (setPc t s).hook = s.hook := rfl

/-! ## setFr -/

@[simp] theorem setFr_gr0 (v : Word) (s : State) : (setFr v s).gr0 = s.gr0 := rfl
@[simp] theorem setFr_gr1 (v : Word) (s : State) : (setFr v s).gr1 = s.gr1 := rfl
@[simp] theorem setFr_gr2 (v : Word) (s : State) : (setFr v s).gr2 = s.gr2 := rfl
@[simp] theorem setFr_gr3 (v : Word) (s : State) : (setFr v s).gr3 = s.gr3 := rfl
@[simp] theorem setFr_gr4 (v : Word) (s : State) : (setFr v s).gr4 = s.gr4 := rfl
@[simp] theorem setFr_pc (v : Word) (s : State) : (setFr v s).pc = s.pc := rfl
@[simp] theorem setFr_fr (v : Word) (s : State) : (setFr v s).fr = v := rfl
@[simp] theorem setFr_halted (v : Word) (s : State) : (setFr v s).halted = s.halted := rfl
@[simp] theorem setFr_faultCause (v : Word) (s : State) : (setFr v s).faultCause = s.faultCause := rfl
@[simp] theorem setFr_faultAddr (v : Word) (s : State) : (setFr v s).faultAddr = s.faultAddr := rfl
@[simp] theorem setFr_faultWord (v : Word) (s : State) : (setFr v s).faultWord = s.faultWord := rfl
@[simp] theorem setFr_mem (v : Word) (s : State) : (setFr v s).mem = s.mem := rfl
@[simp] theorem setFr_hook (v : Word) (s : State) : (setFr v s).hook = s.hook := rfl

/-! ## setHalted -/

@[simp] theorem setHalted_gr0 (b : Bool) (s : State) : (setHalted b s).gr0 = s.gr0 := rfl
@[simp] theorem setHalted_gr1 (b : Bool) (s : State) : (setHalted b s).gr1 = s.gr1 := rfl
@[simp] theorem setHalted_gr2 (b : Bool) (s : State) : (setHalted b s).gr2 = s.gr2 := rfl
@[simp] theorem setHalted_gr3 (b : Bool) (s : State) : (setHalted b s).gr3 = s.gr3 := rfl
@[simp] theorem setHalted_gr4 (b : Bool) (s : State) : (setHalted b s).gr4 = s.gr4 := rfl
@[simp] theorem setHalted_pc (b : Bool) (s : State) : (setHalted b s).pc = s.pc := rfl
@[simp] theorem setHalted_fr (b : Bool) (s : State) : (setHalted b s).fr = s.fr := rfl
@[simp] theorem setHalted_halted (b : Bool) (s : State) : (setHalted b s).halted = b := rfl
@[simp] theorem setHalted_faultCause (b : Bool) (s : State) : (setHalted b s).faultCause = s.faultCause := rfl
@[simp] theorem setHalted_faultAddr (b : Bool) (s : State) : (setHalted b s).faultAddr = s.faultAddr := rfl
@[simp] theorem setHalted_faultWord (b : Bool) (s : State) : (setHalted b s).faultWord = s.faultWord := rfl
@[simp] theorem setHalted_mem (b : Bool) (s : State) : (setHalted b s).mem = s.mem := rfl
@[simp] theorem setHalted_hook (b : Bool) (s : State) : (setHalted b s).hook = s.hook := rfl

/-! ## memWrite -/

@[simp] theorem memWrite_gr0 (a v : Word) (s : State) : (memWrite a v s).gr0 = s.gr0 := rfl
@[simp] theorem memWrite_gr1 (a v : Word) (s : State) : (memWrite a v s).gr1 = s.gr1 := rfl
@[simp] theorem memWrite_gr2 (a v : Word) (s : State) : (memWrite a v s).gr2 = s.gr2 := rfl
@[simp] theorem memWrite_gr3 (a v : Word) (s : State) : (memWrite a v s).gr3 = s.gr3 := rfl
@[simp] theorem memWrite_gr4 (a v : Word) (s : State) : (memWrite a v s).gr4 = s.gr4 := rfl
@[simp] theorem memWrite_pc (a v : Word) (s : State) : (memWrite a v s).pc = s.pc := rfl
@[simp] theorem memWrite_fr (a v : Word) (s : State) : (memWrite a v s).fr = s.fr := rfl
@[simp] theorem memWrite_halted (a v : Word) (s : State) : (memWrite a v s).halted = s.halted := rfl
@[simp] theorem memWrite_faultCause (a v : Word) (s : State) : (memWrite a v s).faultCause = s.faultCause := rfl
@[simp] theorem memWrite_faultAddr (a v : Word) (s : State) : (memWrite a v s).faultAddr = s.faultAddr := rfl
@[simp] theorem memWrite_faultWord (a v : Word) (s : State) : (memWrite a v s).faultWord = s.faultWord := rfl
@[simp] theorem memWrite_mem (a v : Word) (s : State) : (memWrite a v s).mem = s.mem.write a v := rfl
@[simp] theorem memWrite_hook (a v : Word) (s : State) : (memWrite a v s).hook = s.hook := rfl

/-! ## raiseFault -/

@[simp] theorem raiseFault_gr0 (c : FaultCause) (a w : Word) (s : State) : (raiseFault c a w s).gr0 = s.gr0 := rfl
@[simp] theorem raiseFault_gr1 (c : FaultCause) (a w : Word) (s : State) : (raiseFault c a w s).gr1 = s.gr1 := rfl
@[simp] theorem raiseFault_gr2 (c : FaultCause) (a w : Word) (s : State) : (raiseFault c a w s).gr2 = s.gr2 := rfl
@[simp] theorem raiseFault_gr3 (c : FaultCause) (a w : Word) (s : State) : (raiseFault c a w s).gr3 = s.gr3 := rfl
@[simp] theorem raiseFault_gr4 (c : FaultCause) (a w : Word) (s : State) : (raiseFault c a w s).gr4 = s.gr4 := rfl
@[simp] theorem raiseFault_pc (c : FaultCause) (a w : Word) (s : State) : (raiseFault c a w s).pc = s.pc := rfl
@[simp] theorem raiseFault_fr (c : FaultCause) (a w : Word) (s : State) : (raiseFault c a w s).fr = s.fr := rfl
@[simp] theorem raiseFault_halted (c : FaultCause) (a w : Word) (s : State) : (raiseFault c a w s).halted = true := rfl
@[simp] theorem raiseFault_faultCause (c : FaultCause) (a w : Word) (s : State) : (raiseFault c a w s).faultCause = c := rfl
@[simp] theorem raiseFault_faultAddr (c : FaultCause) (a w : Word) (s : State) : (raiseFault c a w s).faultAddr = a := rfl
@[simp] theorem raiseFault_faultWord (c : FaultCause) (a w : Word) (s : State) : (raiseFault c a w s).faultWord = w := rfl
@[simp] theorem raiseFault_mem (c : FaultCause) (a w : Word) (s : State) : (raiseFault c a w s).mem = s.mem := rfl
@[simp] theorem raiseFault_hook (c : FaultCause) (a w : Word) (s : State) : (raiseFault c a w s).hook = s.hook := rfl

/-! ## handlerReturn -/

@[simp] theorem handlerReturn_gr0 (r : Config.HandlerReply) (s : State) : (handlerReturn r s).gr0 = r.gr0 := rfl
@[simp] theorem handlerReturn_gr1 (r : Config.HandlerReply) (s : State) : (handlerReturn r s).gr1 = r.gr1 := rfl
@[simp] theorem handlerReturn_gr2 (r : Config.HandlerReply) (s : State) : (handlerReturn r s).gr2 = r.gr2 := rfl
@[simp] theorem handlerReturn_gr3 (r : Config.HandlerReply) (s : State) : (handlerReturn r s).gr3 = r.gr3 := rfl
@[simp] theorem handlerReturn_gr4 (r : Config.HandlerReply) (s : State) : (handlerReturn r s).gr4 = r.gr4 := rfl
@[simp] theorem handlerReturn_pc (r : Config.HandlerReply) (s : State) : (handlerReturn r s).pc = r.pc := rfl
@[simp] theorem handlerReturn_fr (r : Config.HandlerReply) (s : State) : (handlerReturn r s).fr = r.fr := rfl
@[simp] theorem handlerReturn_halted (r : Config.HandlerReply) (s : State) : (handlerReturn r s).halted = r.halted := rfl
@[simp] theorem handlerReturn_faultCause (r : Config.HandlerReply) (s : State) : (handlerReturn r s).faultCause = s.faultCause := rfl
@[simp] theorem handlerReturn_faultAddr (r : Config.HandlerReply) (s : State) : (handlerReturn r s).faultAddr = s.faultAddr := rfl
@[simp] theorem handlerReturn_faultWord (r : Config.HandlerReply) (s : State) : (handlerReturn r s).faultWord = s.faultWord := rfl
@[simp] theorem handlerReturn_mem (r : Config.HandlerReply) (s : State) : (handlerReturn r s).mem = s.mem.writeAll r.writes := rfl
@[simp] theorem handlerReturn_hook (r : Config.HandlerReply) (s : State) : (handlerReturn r s).hook = s.hook := rfl

/-! ## writeReg -/

@[simp] theorem writeReg_pc (r : Reg) (v : Word) (s : State) : (writeReg r v s).pc = s.pc := by cases r <;> rfl
@[simp] theorem writeReg_fr (r : Reg) (v : Word) (s : State) : (writeReg r v s).fr = s.fr := by cases r <;> rfl
@[simp] theorem writeReg_halted (r : Reg) (v : Word) (s : State) : (writeReg r v s).halted = s.halted := by cases r <;> rfl
@[simp] theorem writeReg_faultCause (r : Reg) (v : Word) (s : State) : (writeReg r v s).faultCause = s.faultCause := by cases r <;> rfl
@[simp] theorem writeReg_faultAddr (r : Reg) (v : Word) (s : State) : (writeReg r v s).faultAddr = s.faultAddr := by cases r <;> rfl
@[simp] theorem writeReg_faultWord (r : Reg) (v : Word) (s : State) : (writeReg r v s).faultWord = s.faultWord := by cases r <;> rfl
@[simp] theorem writeReg_mem (r : Reg) (v : Word) (s : State) : (writeReg r v s).mem = s.mem := by cases r <;> rfl
@[simp] theorem writeReg_hook (r : Reg) (v : Word) (s : State) : (writeReg r v s).hook = s.hook := by cases r <;> rfl

/-! ## writeResult (R27) -/

@[simp] theorem writeResult_pc (r : Reg) (v : Word) (s : State) : (writeResult r v s).pc = s.pc := by cases r <;> rfl
@[simp] theorem writeResult_fr (r : Reg) (v : Word) (s : State) : (writeResult r v s).fr = v := by cases r <;> rfl
@[simp] theorem writeResult_halted (r : Reg) (v : Word) (s : State) : (writeResult r v s).halted = s.halted := by cases r <;> rfl
@[simp] theorem writeResult_faultCause (r : Reg) (v : Word) (s : State) : (writeResult r v s).faultCause = s.faultCause := by cases r <;> rfl
@[simp] theorem writeResult_faultAddr (r : Reg) (v : Word) (s : State) : (writeResult r v s).faultAddr = s.faultAddr := by cases r <;> rfl
@[simp] theorem writeResult_faultWord (r : Reg) (v : Word) (s : State) : (writeResult r v s).faultWord = s.faultWord := by cases r <;> rfl
@[simp] theorem writeResult_mem (r : Reg) (v : Word) (s : State) : (writeResult r v s).mem = s.mem := by cases r <;> rfl
@[simp] theorem writeResult_hook (r : Reg) (v : Word) (s : State) : (writeResult r v s).hook = s.hook := by cases r <;> rfl

/-! ## readReg and memRead -/

@[simp] theorem readReg_setPc (r : Reg) (t : Word) (s : State) : readReg r (setPc t s) = readReg r s := by
  cases r <;> rfl

@[simp] theorem readReg_setFr (r : Reg) (v : Word) (s : State) : readReg r (setFr v s) = readReg r s := by
  cases r <;> rfl

@[simp] theorem readReg_setHalted (r : Reg) (b : Bool) (s : State) : readReg r (setHalted b s) = readReg r s := by
  cases r <;> rfl

@[simp] theorem readReg_memWrite (r : Reg) (a v : Word) (s : State) : readReg r (memWrite a v s) = readReg r s := by
  cases r <;> rfl

@[simp] theorem readReg_raiseFault (r : Reg) (c : FaultCause) (a w : Word) (s : State) :
    readReg r (raiseFault c a w s) = readReg r s := by
  cases r <;> rfl

/-- A register reads what was written to it, and every other register reads as before (R20, R23). -/
theorem readReg_writeReg (q r : Reg) (v : Word) (s : State) :
    readReg q (writeReg r v s) = if q = r then v else readReg q s := by
  cases q <;> cases r <;> rfl

@[simp] theorem readReg_writeReg_same (r : Reg) (v : Word) (s : State) : readReg r (writeReg r v s) = v := by
  cases r <;> rfl

theorem readReg_writeReg_of_ne {q r : Reg} (h : q ≠ r) (v : Word) (s : State) :
    readReg q (writeReg r v s) = readReg q s := by
  rw [readReg_writeReg, if_neg h]

theorem readReg_writeResult (q r : Reg) (v : Word) (s : State) :
    readReg q (writeResult r v s) = if q = r then v else readReg q s := by
  simp [writeResult, readReg_writeReg]

@[simp] theorem memRead_setPc (a t : Word) (s : State) : memRead a (setPc t s) = memRead a s := rfl

@[simp] theorem memRead_setFr (a v : Word) (s : State) : memRead a (setFr v s) = memRead a s := rfl

@[simp] theorem memRead_setHalted (a : Word) (b : Bool) (s : State) : memRead a (setHalted b s) = memRead a s := rfl

@[simp] theorem memRead_raiseFault (a : Word) (c : FaultCause) (p w : Word) (s : State) :
    memRead a (raiseFault c p w s) = memRead a s := rfl

@[simp] theorem memRead_writeReg (a : Word) (r : Reg) (v : Word) (s : State) :
    memRead a (writeReg r v s) = memRead a s := by
  simp [memRead]

@[simp] theorem memRead_writeResult (a : Word) (r : Reg) (v : Word) (s : State) :
    memRead a (writeResult r v s) = memRead a s := by
  simp [memRead]

end Sys2Proof.Machine
end

