-- ==== Sys2Proof/Laws/Memory.lean ====
section
/-! SUPPORT. The laws of memory: what a cell reads after a write, and that every operation keeps the canonical form. -/

namespace Sys2Proof.Machine

/-! ## Reading -/

theorem Memory.lookup_erase (k j : Nat) (m : Memory) :
    (m.erase k).lookup j = if j = k then Config.unlistedCell else m.lookup j := by
  induction m with
  | nil => simp [Memory.erase, Memory.lookup]
  | cons c rest ih =>
    obtain ⟨k', v⟩ := c
    simp only [Memory.erase, List.filter_cons, Memory.lookup] at ih ⊢
    by_cases hk : k' = k
    · subst hk
      simp only [bne_self_eq_false, Bool.false_eq_true, if_false, ih]
      by_cases hj : j = k' <;> simp [hj, eq_comm]
    · rw [if_pos (by simpa using hk), Memory.lookup]
      by_cases hj : k' = j
      · subst hj; simp [hk]
      · simp only [if_neg hj, ih]

theorem Memory.lookup_place (k j : Nat) (v : Word) (m : Memory) (h : ∀ c ∈ m, c.1 ≠ k) :
    (m.place k v).lookup j = if j = k then v else m.lookup j := by
  induction m with
  | nil => simp [Memory.place, Memory.lookup, eq_comm]
  | cons c rest ih =>
    obtain ⟨k', v'⟩ := c
    have hne : k' ≠ k := h _ (List.mem_cons_self ..)
    have ih := ih fun c hc => h c (List.mem_cons_of_mem _ hc)
    simp only [Memory.place]
    by_cases hlt : k < k'
    · simp [hlt, Memory.lookup, eq_comm]
    · simp only [if_neg hlt, Memory.lookup, ih]
      by_cases hj : j = k
      · subst hj; simp [hne]
      · simp [hj]

theorem Memory.mem_erase_ne {k : Nat} {m : Memory} {c : Nat × Word} (h : c ∈ m.erase k) : c ∈ m ∧ c.1 ≠ k := by
  simpa [Memory.erase] using h

/-- A read after a write: the cell written gives the value, every other cell what it gave before (R56, R57). It holds
of every memory, canonical or not. -/
theorem Memory.read_write (m : Memory) (a v b : Word) : (m.write a v).read b = if b = a then v else m.read b := by
  have hab : (b.toNat = a.toNat) = (b = a) := propext ⟨BitVec.eq_of_toNat_eq, congrArg _⟩
  unfold Memory.write Memory.read
  by_cases hv : v = Config.unlistedCell
  · simp [hv, Memory.lookup_erase, hab]
  · rw [if_neg hv, Memory.lookup_place _ _ _ _ fun c hc => (Memory.mem_erase_ne hc).2, Memory.lookup_erase]
    by_cases h : b = a <;> simp [hab, h]

@[simp] theorem Memory.read_write_same (m : Memory) (a v : Word) : (m.write a v).read a = v := by
  simp [Memory.read_write]

theorem Memory.read_write_of_ne (m : Memory) {a b : Word} (h : b ≠ a) (v : Word) :
    (m.write a v).read b = m.read b := by
  simp [Memory.read_write, h]

theorem memRead_memWrite (a b v : Word) (s : State) : memRead b (memWrite a v s) = if b = a then v else memRead b s :=
  Memory.read_write s.mem a v b

@[simp] theorem memRead_memWrite_same (a v : Word) (s : State) : memRead a (memWrite a v s) = v := by
  simp [memRead_memWrite]

@[simp] theorem Memory.read_empty (a : Word) : Memory.read [] a = Config.unlistedCell := rfl

/-! ## The canonical form -/

@[simp] theorem Memory.wf_nil : Memory.wf [] := by simp [Memory.wf]

theorem Memory.wf_erase {m : Memory} (h : m.wf) (k : Nat) : (m.erase k).wf :=
  ⟨h.1.filter _, fun c hc => h.2 c (Memory.mem_erase_ne hc).1⟩

theorem Memory.mem_place {k : Nat} {v : Word} {m : Memory} {c : Nat × Word} :
    c ∈ m.place k v ↔ c = (k, v) ∨ c ∈ m := by
  induction m with
  | nil => simp [Memory.place]
  | cons d rest ih =>
    obtain ⟨k', v'⟩ := d
    simp only [Memory.place]
    split
    · simp
    · simp [ih, or_left_comm]

theorem Memory.wf_place {m : Memory} (h : m.wf) {k : Nat} {v : Word} (hk : k < Config.memWords)
    (hv : v ≠ Config.unlistedCell) (hne : ∀ c ∈ m, c.1 ≠ k) : (m.place k v).wf := by
  refine ⟨?_, fun c hc => ?_⟩
  · have hp := h.1
    clear h
    induction m with
    | nil => simp [Memory.place]
    | cons d rest ih =>
      obtain ⟨k', v'⟩ := d
      obtain ⟨hfirst, hrest⟩ := List.pairwise_cons.mp hp
      have hkk' : k' ≠ k := hne _ (List.mem_cons_self ..)
      simp only [Memory.place]
      split
      · rename_i hlt
        refine List.pairwise_cons.mpr ⟨fun c hc => ?_, hp⟩
        rcases List.mem_cons.mp hc with rfl | hc
        · exact hlt
        · exact lt_trans hlt (hfirst c hc)
      · rename_i hlt
        refine List.pairwise_cons.mpr ⟨fun c hc => ?_, ih (fun c hc => hne c (List.mem_cons_of_mem _ hc)) hrest⟩
        rcases Memory.mem_place.mp hc with rfl | hc
        · simp only; omega
        · exact hfirst c hc
  · rcases Memory.mem_place.mp hc with rfl | hc
    · exact ⟨hk, hv⟩
    · exact h.2 c hc

/-- A write keeps the canonical form. -/
theorem Memory.wf_write {m : Memory} (h : m.wf) (a v : Word) : (m.write a v).wf := by
  unfold Memory.write
  split
  · exact Memory.wf_erase h _
  · rename_i hv
    exact Memory.wf_place (Memory.wf_erase h _) a.isLt hv fun c hc => (Memory.mem_erase_ne hc).2

/-- A list of writes, the handler's for one, keeps the canonical form. -/
theorem Memory.wf_writeAll {m : Memory} (h : m.wf) (ws : List (Word × Word)) : (m.writeAll ws).wf := by
  induction ws generalizing m with
  | nil => exact h
  | cons w rest ih => exact ih (Memory.wf_write h w.1 w.2)

theorem Memory.ofImage_mem {ws : List Word} {k : Nat} {c : Nat × Word} (h : c ∈ Memory.ofImage k ws) :
    k ≤ c.1 ∧ c.1 < k + ws.length ∧ c.2 ≠ Config.unlistedCell := by
  induction ws generalizing k with
  | nil => simp [Memory.ofImage] at h
  | cons w rest ih =>
    simp only [Memory.ofImage] at h
    simp only [List.length_cons]
    split at h
    · have := ih h
      exact ⟨by omega, by omega, this.2.2⟩
    · rcases List.mem_cons.mp h with rfl | h
      · exact ⟨le_refl _, by simp, ‹_›⟩
      · have := ih h; refine ⟨by omega, by omega, this.2.2⟩

/-- An image that fits gives a memory in the canonical form (R44, R251). -/
theorem Memory.wf_ofImage (ws : List Word) (k : Nat) (h : k + ws.length ≤ Config.memWords) :
    (Memory.ofImage k ws).wf := by
  refine ⟨?_, fun c hc => ⟨by have := Memory.ofImage_mem hc; omega, (Memory.ofImage_mem hc).2.2⟩⟩
  clear h
  induction ws generalizing k with
  | nil => simp [Memory.ofImage]
  | cons w rest ih =>
    simp only [Memory.ofImage]
    split
    · exact ih _
    · exact List.pairwise_cons.mpr ⟨fun c hc => by have := Memory.ofImage_mem hc; simp only; omega, ih _⟩

/-- What a cell reads after an image is loaded (R44). -/
theorem Memory.lookup_ofImage (ws : List Word) (k j : Nat) :
    (Memory.ofImage k ws).lookup j = if k ≤ j then ws.getD (j - k) Config.unlistedCell else Config.unlistedCell := by
  induction ws generalizing k with
  | nil => simp [Memory.ofImage, Memory.lookup]
  | cons w rest ih =>
    simp only [Memory.ofImage]
    split
    · rename_i hw
      rw [ih]
      by_cases hj : j = k
      · subst hj; simp [hw]
      · by_cases hlt : k ≤ j
        · obtain ⟨d, rfl⟩ : ∃ d, j = k + 1 + d := ⟨j - (k + 1), by omega⟩
          simp [show k + 1 + d - k = d + 1 by omega, show k ≤ k + 1 + d by omega]
        · simp [hlt, show ¬ k + 1 ≤ j by omega]
    · simp only [Memory.lookup, ih]
      by_cases hj : k = j
      · subst hj; simp
      · rw [if_neg hj]
        by_cases hlt : k ≤ j
        · obtain ⟨d, rfl⟩ : ∃ d, j = k + 1 + d := ⟨j - (k + 1), by omega⟩
          simp [show k + 1 + d - k = d + 1 by omega, show k ≤ k + 1 + d by omega]
        · simp [hlt, show ¬ k + 1 ≤ j by omega]

end Sys2Proof.Machine
end

