-- ==== Sys2Proof/Laws/Operands.lean ====
section
/-! SUPPORT. The small lemmas of the readings of a word, the addresses, the register fields and the result functions:
each definition of Machine/Operands.lean in terms of the arithmetic of bit vectors. -/

namespace Sys2Proof.Machine

/-! ## Readings (R8) -/

theorem wrap16_add (m n : Int) : wrap16 (m + n) = wrap16 m + wrap16 n := BitVec.ofInt_add m n

theorem wrap16_mul (m n : Int) : wrap16 (m * n) = wrap16 m * wrap16 n := BitVec.ofInt_mul m n

theorem wrap16_neg (n : Int) : wrap16 (-n) = -wrap16 n := by
  simp only [wrap16]; exact BitVec.ofInt_neg

theorem wrap16_sub (m n : Int) : wrap16 (m - n) = wrap16 m - wrap16 n := by
  rw [Int.sub_eq_add_neg, wrap16_add, wrap16_neg, BitVec.sub_eq_add_neg]

@[simp] theorem wrap16_s16 (v : Word) : wrap16 (s16 v) = v := by simp [wrap16, s16]

@[simp] theorem wrap16_u16 (v : Word) : wrap16 (u16 v) = v := by simp [wrap16, u16]

/-- The two readings differ by a multiple of 65536 (R155, R162). -/
theorem s16_eq_u16_or (v : Word) : s16 v = u16 v ∨ s16 v = u16 v - 65536 := by
  simp only [s16, u16, BitVec.toInt_eq_toNat_cond]
  split <;> simp

theorem s16_eq_zero_iff (v : Word) : s16 v = 0 ↔ v = 0 := by
  constructor
  · intro h
    exact BitVec.eq_of_toInt_eq (by simpa [s16] using h)
  · rintro rfl; rfl

/-! ## Results -/

theorem addWords_eq (a b : Word) : addWords a b = a + b := by simp [addWords, wrap16_add]

theorem subWords_eq (a b : Word) : subWords a b = a - b := by simp [subWords, wrap16_sub]

theorem subWordsUnsigned_eq (a b : Word) : subWordsUnsigned a b = a - b := by simp [subWordsUnsigned, wrap16_sub]

theorem mulWords_eq (a b : Word) : mulWords a b = a * b := by simp [mulWords, wrap16_mul]

theorem divWords_of_ne_zero (p : Config.DivzPolicy) (a : Word) {b : Word} (h : b ≠ 0) :
    divWords p a b = .value (wrap16 (divmod (s16 a) (s16 b)).1) :=
  if_neg fun h0 => h ((s16_eq_zero_iff b).mp h0)

theorem modWords_of_ne_zero (p : Config.DivzPolicy) (a : Word) {b : Word} (h : b ≠ 0) :
    modWords p a b = .value (wrap16 (divmod (s16 a) (s16 b)).2) :=
  if_neg fun h0 => h ((s16_eq_zero_iff b).mp h0)

@[simp] theorem divWords_zero (p : Config.DivzPolicy) (a : Word) : divWords p a 0 = divideByZero p false a :=
  if_pos ((s16_eq_zero_iff 0).mpr rfl)

@[simp] theorem modWords_zero (p : Config.DivzPolicy) (a : Word) : modWords p a 0 = divideByZero p true a :=
  if_pos ((s16_eq_zero_iff 0).mpr rfl)

/-! ## Shifts (R150) -/

theorem shiftCount_of_nonneg {c : Word} (h : 0 ≤ s16 c) : shiftCount .iterateFault c = .positions c.toNat :=
  if_neg (not_lt.mpr h)

theorem shiftCount_of_neg {c : Word} (h : s16 c < 0) : shiftCount .iterateFault c = .trap := if_pos h

/-- What a shift can do under the bound policy: it shifts, or it traps. -/
theorem shiftWords_cases (m : Mnemonic) (f : Word → Nat → Word) (v c : Word) :
    (0 ≤ s16 c ∧ shiftWords shiftPolicy m f v c = .value (f v c.toNat)) ∨
      (s16 c < 0 ∧ shiftWords shiftPolicy m f v c = .trap) := by
  rcases le_or_gt 0 (s16 c) with h | h
  · exact .inl ⟨h, by simp [shiftWords, shiftPolicy, shiftCount_of_nonneg h]⟩
  · exact .inr ⟨h, by simp [shiftWords, shiftPolicy, shiftCount_of_neg h]⟩

/-! ## Addresses -/

@[simp] theorem effectiveAddress_gr0 (adr : Word) (s : State) : effectiveAddress .gr0 adr s = adr := rfl

theorem effectiveAddress_of_ne {x : Reg} (h : x ≠ .gr0) (adr : Word) (s : State) :
    effectiveAddress x adr s = adr + readReg x s := by
  cases x <;> simp_all [effectiveAddress, wrap16_add]

theorem npc_eq (m : Mnemonic) (s : State) : npc m s = s.pc + BitVec.ofNat 16 m.words := by
  simp only [npc, wrap16_add, wrap16_u16]
  simp [wrap16]

theorem pushAddress_eq (s : State) : pushAddress s = readReg .sp s - 1 := by
  simp only [pushAddress, wrap16_sub, wrap16_u16]
  rfl

theorem poppedSp_eq (s : State) : poppedSp s = readReg .sp s + 1 := by
  simp only [poppedSp, wrap16_add, wrap16_u16]
  rfl

/-! FR takes no part in an address. -/

@[simp] theorem effectiveAddress_setFr (x : Reg) (adr v : Word) (s : State) :
    effectiveAddress x adr (setFr v s) = effectiveAddress x adr s := by
  cases x <;> rfl

@[simp] theorem npc_setFr (m : Mnemonic) (v : Word) (s : State) : npc m (setFr v s) = npc m s := rfl

@[simp] theorem pushAddress_setFr (v : Word) (s : State) : pushAddress (setFr v s) = pushAddress s := rfl

/-! ## Register fields (R21, R74) -/

theorem Reg.ofField_eq_none {f : Nibble} : Reg.ofField f = none ↔ legalField f = false := by
  revert f; decide

theorem legalField_of_ofField {f : Nibble} {r : Reg} (h : Reg.ofField f = some r) : legalField f = true := by
  cases hl : legalField f with
  | true => rfl
  | false => rw [Reg.ofField_eq_none.mpr hl] at h; cases h

theorem ofField_of_legalField {f : Nibble} (h : legalField f = true) : ∃ r, Reg.ofField f = some r := by
  cases hr : Reg.ofField f with
  | some r => exact ⟨r, rfl⟩
  | none => rw [Reg.ofField_eq_none.mp hr] at h; cases h

end Sys2Proof.Machine
end

