-- ==== Sys2Proof/Laws/Disassembler.lean ====
section
/-! SUPPORT. The disassembler: what one line can be, said once, and the number texts as Lean's own. -/

namespace Sys2Proof.Machine

/-- The decimal text of a field or an id is the number's (R203). -/
theorem dec_eq_toString {n : Nat} (h : n < 256) : dec n = toString n := by
  have below : ∀ k < 64, dec k = toString k := by decide
  have second : ∀ k < 64, dec (64 + k) = toString (64 + k) := by decide
  have third : ∀ k < 64, dec (128 + k) = toString (128 + k) := by decide
  have fourth : ∀ k < 64, dec (192 + k) = toString (192 + k) := by decide
  rcases Nat.lt_or_ge n 64 with h1 | h1
  · exact below n h1
  rcases Nat.lt_or_ge n 128 with h2 | h2
  · simpa [show 64 + (n - 64) = n by omega] using second (n - 64) (by omega)
  rcases Nat.lt_or_ge n 192 with h3 | h3
  · simpa [show 128 + (n - 128) = n by omega] using third (n - 128) (by omega)
  · simpa [show 192 + (n - 192) = n by omega] using fourth (n - 192) (by omega)

/-- What one line can be: unknown, which ends the output (R204), or the line of a defined opcode with a legal `gr`, after
which the next line's address is past its words (R202, R206). -/
theorem renderLine_cases (cpl : Config.CplClass) (mem : Memory) (a : Word) :
    (unknownLine (mem.read a) = true ∧ renderLine cpl mem a = (unknownMark, none)) ∨
      ∃ m, Mnemonic.ofOpc (opField (mem.read a)) = some m ∧ legalField (grField (mem.read a)) = true ∧
        renderLine cpl mem a =
          (lineText cpl m (grField (mem.read a)) (xrField (mem.read a)) (mem.read (a + 1)),
            some (a + BitVec.ofNat 16 m.words)) := by
  have next : ∀ n : Nat, wrap16 (u16 a + n) = a + BitVec.ofNat 16 n := fun n => by
    simp only [wrap16_add, wrap16_u16]
    simp [wrap16]
  cases hu : unknownLine (mem.read a) with
  | true => exact .inl ⟨rfl, by simp [renderLine, hu]⟩
  | false =>
    have hparts := hu
    simp only [unknownLine, Bool.or_eq_false_iff, Bool.not_eq_false'] at hparts
    obtain ⟨⟨_, hg⟩, ho⟩ := hparts
    obtain ⟨m, hm⟩ := Option.isSome_iff_exists.mp (by simpa using ho)
    refine .inr ⟨m, hm, hg, ?_⟩
    have one : wrap16 (u16 a + 1) = a + 1 := next 1
    simp [renderLine, hu, decodeFields, hm, one, next]

/-- An unknown line fails one of the three checks of R204. -/
theorem unknownLine_eq_true_iff (w : Word) :
    unknownLine w = true ↔
      0x2A < (opField w).toNat ∨ legalField (grField w) = false ∨ Mnemonic.ofOpc (opField w) = none := by
  simp [unknownLine, Mnemonic.opc, or_assoc]

end Sys2Proof.Machine
end

