-- ==== Sys2Proof/Laws/PerInstr.lean ====
section
/-! SUPPORT. A family of lemmas, one per instruction: an instruction is what its mnemonic and its fields stand for, so
no bit of it is lost between `Instr` and the fields of its words (R71, R72, R79). -/

namespace Sys2Proof.Laws.FieldsMakeInstr

/-- The mnemonic, `gr`, `xr` and `adr` of an instruction give it back. -/
def Statement (i : Instr) : Prop := i.mnemonic.instr i.gr i.xr i.adr = i

theorem halt (gr xr : Nibble) : Statement (.halt gr xr) := rfl

theorem ld (gr xr : Nibble) (adr : Word) : Statement (.ld gr xr adr) := rfl

theorem st (gr xr : Nibble) (adr : Word) : Statement (.st gr xr adr) := rfl

theorem lea (gr xr : Nibble) (adr : Word) : Statement (.lea gr xr adr) := rfl

theorem add (gr xr : Nibble) (adr : Word) : Statement (.add gr xr adr) := rfl

theorem sub (gr xr : Nibble) (adr : Word) : Statement (.sub gr xr adr) := rfl

theorem mul (gr xr : Nibble) (adr : Word) : Statement (.mul gr xr adr) := rfl

theorem div (gr xr : Nibble) (adr : Word) : Statement (.div gr xr adr) := rfl

theorem mod (gr xr : Nibble) (adr : Word) : Statement (.mod gr xr adr) := rfl

theorem and (gr xr : Nibble) (adr : Word) : Statement (.and gr xr adr) := rfl

theorem or (gr xr : Nibble) (adr : Word) : Statement (.or gr xr adr) := rfl

theorem eor (gr xr : Nibble) (adr : Word) : Statement (.eor gr xr adr) := rfl

theorem sla (gr xr : Nibble) (adr : Word) : Statement (.sla gr xr adr) := rfl

theorem sra (gr xr : Nibble) (adr : Word) : Statement (.sra gr xr adr) := rfl

theorem sll (gr xr : Nibble) (adr : Word) : Statement (.sll gr xr adr) := rfl

theorem srl (gr xr : Nibble) (adr : Word) : Statement (.srl gr xr adr) := rfl

theorem cpa (gr xr : Nibble) (adr : Word) : Statement (.cpa gr xr adr) := rfl

theorem cpl (gr xr : Nibble) (adr : Word) : Statement (.cpl gr xr adr) := rfl

theorem jmp (gr xr : Nibble) (adr : Word) : Statement (.jmp gr xr adr) := rfl

theorem jpz (gr xr : Nibble) (adr : Word) : Statement (.jpz gr xr adr) := rfl

theorem jmi (gr xr : Nibble) (adr : Word) : Statement (.jmi gr xr adr) := rfl

theorem jnz (gr xr : Nibble) (adr : Word) : Statement (.jnz gr xr adr) := rfl

theorem jze (gr xr : Nibble) (adr : Word) : Statement (.jze gr xr adr) := rfl

theorem push (gr xr : Nibble) (adr : Word) : Statement (.push gr xr adr) := rfl

theorem pop (gr xr : Nibble) : Statement (.pop gr xr) := rfl

theorem call (gr xr : Nibble) (adr : Word) : Statement (.call gr xr adr) := rfl

theorem ret (gr xr : Nibble) : Statement (.ret gr xr) := rfl

theorem syscall (id : Byte) : Statement (.syscall id) := congrArg Instr.syscall (nibbles_of_byte id)

end Sys2Proof.Laws.FieldsMakeInstr
end

