-- ==== Sys2Proof/Laws/Shapes.lean ====
section
/-! SUPPORT. What each shared shape can do, said once: with legal fields it goes on with the registers they name; and if
it answers a next state, then one of these cases holds. -/

namespace Sys2Proof.Machine

theorem withFields_legal {m : Mnemonic} {gr xr : Nibble} {r x : Reg} (hr : Reg.ofField gr = some r)
    (hx : Reg.ofField xr = some x) (s : State) (k : Reg → Reg → StepResult) : withFields m gr xr s k = k r x := by
  simp [withFields, hr, hx]

/-- A field above 4 raises IllegalInstruction, whatever the instruction (R102). -/
theorem withFields_illegal {m : Mnemonic} {gr xr : Nibble} (h : (legalField gr && legalField xr) = false) (s : State)
    (k : Reg → Reg → StepResult) :
    withFields m gr xr s k = .next (raiseFault .illegalInstruction s.pc (word0Of m.opc gr xr) s) := by
  unfold withFields
  split
  · rename_i r x hr hx
    simp [legalField_of_ofField hr, legalField_of_ofField hx] at h
  · rfl

/-- What a meaning can do once its fields are checked. -/
theorem withFields_cases (m : Mnemonic) (gr xr : Nibble) (s : State) (k : Reg → Reg → StepResult) :
    (∃ r x, Reg.ofField gr = some r ∧ Reg.ofField xr = some x ∧ withFields m gr xr s k = k r x) ∨
      ((legalField gr && legalField xr) = false ∧
        withFields m gr xr s k = .next (raiseFault .illegalInstruction s.pc (word0Of m.opc gr xr) s)) := by
  cases h : legalField gr && legalField xr with
  | true =>
    obtain ⟨hg, hx⟩ := Bool.and_eq_true_iff.mp h
    obtain ⟨r, hr⟩ := ofField_of_legalField hg
    obtain ⟨x, hx⟩ := ofField_of_legalField hx
    exact .inl ⟨r, x, hr, hx, withFields_legal hr hx s k⟩
  | false => exact .inr ⟨rfl, withFields_illegal h s k⟩

/-- A result-producing instruction with legal fields and a result. -/
theorem resultOp_value {m : Mnemonic} {f : Word → Word → AluResult} {gr xr : Nibble} {adr v : Word} {r x : Reg}
    {s : State} (hr : Reg.ofField gr = some r) (hx : Reg.ofField xr = some x)
    (hf : f (readReg r s) (memRead (effectiveAddress x adr s) s) = .value v) :
    resultOp m f gr xr adr s = .next (setPc (npc m s) (writeResult r v s)) := by
  unfold resultOp
  rw [withFields_legal hr hx]
  simp only [hf]

/-- A result-producing instruction with legal fields whose operands trap. -/
theorem resultOp_trap {m : Mnemonic} {f : Word → Word → AluResult} {gr xr : Nibble} {adr : Word} {r x : Reg}
    {s : State} (hr : Reg.ofField gr = some r) (hx : Reg.ofField xr = some x)
    (hf : f (readReg r s) (memRead (effectiveAddress x adr s) s) = .trap) :
    resultOp m f gr xr adr s = .next (raiseFault .arithmeticFault s.pc (word0Of m.opc gr xr) s) := by
  unfold resultOp
  rw [withFields_legal hr hx]
  simp only [hf]

/-- What a result-producing instruction can do: the illegal-field fault, a result, or the arithmetic fault. -/
theorem resultOp_next {m : Mnemonic} {f : Word → Word → AluResult} {gr xr : Nibble} {adr : Word} {s t : State}
    (h : resultOp m f gr xr adr s = .next t) :
    ((legalField gr && legalField xr) = false ∧
        t = raiseFault .illegalInstruction s.pc (word0Of m.opc gr xr) s) ∨
      ∃ r x, Reg.ofField gr = some r ∧ Reg.ofField xr = some x ∧
        ((∃ v, f (readReg r s) (memRead (effectiveAddress x adr s) s) = .value v ∧
            t = setPc (npc m s) (writeResult r v s)) ∨
          (f (readReg r s) (memRead (effectiveAddress x adr s) s) = .trap ∧
            t = raiseFault .arithmeticFault s.pc (word0Of m.opc gr xr) s)) := by
  unfold resultOp at h
  rcases withFields_cases m gr xr s _ with ⟨r, x, hr, hx, he⟩ | ⟨hl, he⟩ <;> rw [he] at h
  · refine .inr ⟨r, x, hr, hx, ?_⟩
    split at h
    · cases h; exact .inl ⟨_, ‹_›, rfl⟩
    · cases h; exact .inr ⟨‹_›, rfl⟩
    · cases h
  · cases h; exact .inl ⟨hl, rfl⟩

/-- What a comparison can do. -/
theorem compareOp_next {m : Mnemonic} {f : Word → Word → Word} {gr xr : Nibble} {adr : Word} {s t : State}
    (h : compareOp m f gr xr adr s = .next t) :
    ((legalField gr && legalField xr) = false ∧
        t = raiseFault .illegalInstruction s.pc (word0Of m.opc gr xr) s) ∨
      ∃ r x, Reg.ofField gr = some r ∧ Reg.ofField xr = some x ∧
        t = setPc (npc m s) (setFr (f (readReg r s) (memRead (effectiveAddress x adr s) s)) s) := by
  unfold compareOp at h
  rcases withFields_cases m gr xr s _ with ⟨r, x, hr, hx, he⟩ | ⟨hl, he⟩ <;> rw [he] at h <;> cases h
  · exact .inr ⟨r, x, hr, hx, rfl⟩
  · exact .inl ⟨hl, rfl⟩

/-- What a jump can do. -/
theorem jumpOp_next {m : Mnemonic} {c : JumpCond} {gr xr : Nibble} {adr : Word} {s t : State}
    (h : jumpOp m c gr xr adr s = .next t) :
    ((legalField gr && legalField xr) = false ∧
        t = raiseFault .illegalInstruction s.pc (word0Of m.opc gr xr) s) ∨
      ∃ r x, Reg.ofField gr = some r ∧ Reg.ofField xr = some x ∧
        t = setPc (if c.taken s.fr then effectiveAddress x adr s else npc m s) s := by
  unfold jumpOp at h
  rcases withFields_cases m gr xr s _ with ⟨r, x, hr, hx, he⟩ | ⟨hl, he⟩ <;> rw [he] at h <;> cases h
  · exact .inr ⟨r, x, hr, hx, rfl⟩
  · exact .inl ⟨hl, rfl⟩

/-! ## The trap (R191, R192) -/

@[simp] theorem trapWith_none {hs : Nat → Config.HandlerView → Byte → Config.HandlerReply} {id : Byte} {s : State}
    (h : s.hook = none) : trapWith hs id s = s := by
  simp [trapWith, h]

theorem trapWith_some {hs : Nat → Config.HandlerView → Byte → Config.HandlerReply} {id : Byte} {s : State} {n : Nat}
    (h : s.hook = some n) : trapWith hs id s = handlerReturn (hs n s.handlerView id) s := by
  simp [trapWith, h]

/-- Whatever the handler does, the fault record and the handler are as they were (R192). -/
theorem trapWith_frame (hs : Nat → Config.HandlerView → Byte → Config.HandlerReply) (id : Byte) (s : State) :
    (trapWith hs id s).faultCause = s.faultCause ∧ (trapWith hs id s).faultAddr = s.faultAddr ∧
      (trapWith hs id s).faultWord = s.faultWord ∧ (trapWith hs id s).hook = s.hook := by
  cases h : s.hook <;> simp [trapWith, h]

/-- Whatever the handler does, memory keeps its canonical form. -/
theorem trapWith_wf (hs : Nat → Config.HandlerView → Byte → Config.HandlerReply) (id : Byte) (s : State)
    (hm : s.mem.wf) : (trapWith hs id s).mem.wf := by
  cases h : s.hook with
  | none => simpa [trapWith, h] using hm
  | some n => simpa [trapWith, h] using Memory.wf_writeAll hm _

end Sys2Proof.Machine
end

