-- ==== Sys2Proof/Laws/Step.lean ====
section
/-! SUPPORT. What a step can do, said once, and the inversion lemmas of the meanings that use no shape but the field
check. -/

namespace Sys2Proof.Machine

/-- A step: nothing when halted, the instruction's arm, or IllegalInstruction (R100, R107). -/
theorem step_cases (s : State) :
    (s.halted = true ∧ step s = .next s) ∨
      (s.halted = false ∧ ∃ i, decode (fetchWord0 s) (fetchWord1 s) = .ok i ∧ step s = exec i s) ∨
      (s.halted = false ∧ (∃ e, decode (fetchWord0 s) (fetchWord1 s) = .error e) ∧
        step s = .next (raiseFault .illegalInstruction s.pc (fetchWord0 s) s)) := by
  unfold step
  cases s.halted with
  | true => exact .inl ⟨rfl, rfl⟩
  | false =>
    cases hd : decode (fetchWord0 s) (fetchWord1 s) with
    | ok i => exact .inr (.inl ⟨rfl, i, rfl, rfl⟩)
    | error e => exact .inr (.inr ⟨rfl, ⟨e, rfl⟩, rfl⟩)

/-- What LD can do. -/
theorem execLd_next {gr xr : Nibble} {adr : Word} {s t : State} (h : execLd gr xr adr s = .next t) :
    ((legalField gr && legalField xr) = false ∧
        t = raiseFault .illegalInstruction s.pc (word0Of Mnemonic.ld.opc gr xr) s) ∨
      ∃ r x, Reg.ofField gr = some r ∧ Reg.ofField xr = some x ∧
        t = setPc (npc .ld s) (writeReg r (memRead (effectiveAddress x adr s) s) s) := by
  unfold execLd at h
  rcases withFields_cases .ld gr xr s _ with ⟨r, x, hr, hx, he⟩ | ⟨hl, he⟩ <;> rw [he] at h <;> cases h
  · exact .inr ⟨r, x, hr, hx, rfl⟩
  · exact .inl ⟨hl, rfl⟩

/-- What ST can do. -/
theorem execSt_next {gr xr : Nibble} {adr : Word} {s t : State} (h : execSt gr xr adr s = .next t) :
    ((legalField gr && legalField xr) = false ∧
        t = raiseFault .illegalInstruction s.pc (word0Of Mnemonic.st.opc gr xr) s) ∨
      ∃ r x, Reg.ofField gr = some r ∧ Reg.ofField xr = some x ∧
        t = setPc (npc .st s) (memWrite (effectiveAddress x adr s) (readReg r s) s) := by
  unfold execSt at h
  rcases withFields_cases .st gr xr s _ with ⟨r, x, hr, hx, he⟩ | ⟨hl, he⟩ <;> rw [he] at h <;> cases h
  · exact .inr ⟨r, x, hr, hx, rfl⟩
  · exact .inl ⟨hl, rfl⟩

/-- What LEA can do. -/
theorem execLea_next {gr xr : Nibble} {adr : Word} {s t : State} (h : execLea gr xr adr s = .next t) :
    ((legalField gr && legalField xr) = false ∧
        t = raiseFault .illegalInstruction s.pc (word0Of Mnemonic.lea.opc gr xr) s) ∨
      ∃ r x, Reg.ofField gr = some r ∧ Reg.ofField xr = some x ∧
        t = setPc (npc .lea s) (writeResult r (effectiveAddress x adr s) s) := by
  unfold execLea at h
  rcases withFields_cases .lea gr xr s _ with ⟨r, x, hr, hx, he⟩ | ⟨hl, he⟩ <;> rw [he] at h <;> cases h
  · exact .inr ⟨r, x, hr, hx, rfl⟩
  · exact .inl ⟨hl, rfl⟩

/-- What PUSH can do. -/
theorem execPush_next {gr xr : Nibble} {adr : Word} {s t : State} (h : execPush gr xr adr s = .next t) :
    ((legalField gr && legalField xr) = false ∧
        t = raiseFault .illegalInstruction s.pc (word0Of Mnemonic.push.opc gr xr) s) ∨
      ∃ r x, Reg.ofField gr = some r ∧ Reg.ofField xr = some x ∧
        t = setPc (npc .push s) (writeReg .sp (pushAddress s)
          (memWrite (pushAddress s) (memRead (effectiveAddress x adr s) s) s)) := by
  unfold execPush at h
  rcases withFields_cases .push gr xr s _ with ⟨r, x, hr, hx, he⟩ | ⟨hl, he⟩ <;> rw [he] at h <;> cases h
  · exact .inr ⟨r, x, hr, hx, rfl⟩
  · exact .inl ⟨hl, rfl⟩

/-- What POP can do. -/
theorem execPop_next {gr xr : Nibble} {s t : State} (h : execPop gr xr s = .next t) :
    ((legalField gr && legalField xr) = false ∧
        t = raiseFault .illegalInstruction s.pc (word0Of Mnemonic.pop.opc gr xr) s) ∨
      ∃ r x, Reg.ofField gr = some r ∧ Reg.ofField xr = some x ∧
        t = setPc (npc .pop s) (writeReg .sp (poppedSp (writeReg r (memRead (readReg .sp s) s) s))
          (writeReg r (memRead (readReg .sp s) s) s)) := by
  unfold execPop at h
  rcases withFields_cases .pop gr xr s _ with ⟨r, x, hr, hx, he⟩ | ⟨hl, he⟩ <;> rw [he] at h <;> cases h
  · exact .inr ⟨r, x, hr, hx, rfl⟩
  · exact .inl ⟨hl, rfl⟩

/-- What CALL can do. -/
theorem execCall_next {gr xr : Nibble} {adr : Word} {s t : State} (h : execCall gr xr adr s = .next t) :
    ((legalField gr && legalField xr) = false ∧
        t = raiseFault .illegalInstruction s.pc (word0Of Mnemonic.call.opc gr xr) s) ∨
      ∃ r x, Reg.ofField gr = some r ∧ Reg.ofField xr = some x ∧
        t = writeReg .sp (pushAddress s)
          (setPc (memRead (effectiveAddress x adr s) (memWrite (pushAddress s) (npc .call s) s))
            (memWrite (pushAddress s) (npc .call s) s)) := by
  unfold execCall at h
  rcases withFields_cases .call gr xr s _ with ⟨r, x, hr, hx, he⟩ | ⟨hl, he⟩ <;> rw [he] at h <;> cases h
  · exact .inr ⟨r, x, hr, hx, rfl⟩
  · exact .inl ⟨hl, rfl⟩

/-- What RET can do. -/
theorem execRet_next {gr xr : Nibble} {s t : State} (h : execRet gr xr s = .next t) :
    ((legalField gr && legalField xr) = false ∧
        t = raiseFault .illegalInstruction s.pc (word0Of Mnemonic.ret.opc gr xr) s) ∨
      ∃ r x, Reg.ofField gr = some r ∧ Reg.ofField xr = some x ∧
        t = writeReg .sp (poppedSp s) (setPc (memRead (readReg .sp s) s) s) := by
  unfold execRet at h
  rcases withFields_cases .ret gr xr s _ with ⟨r, x, hr, hx, he⟩ | ⟨hl, he⟩ <;> rw [he] at h <;> cases h
  · refine .inr ⟨r, x, hr, hx, ?_⟩
    simp [poppedSp]
  · exact .inl ⟨hl, rfl⟩

/-- What HALT can do. -/
theorem execHalt_next {gr xr : Nibble} {s t : State} (h : execHalt gr xr s = .next t) :
    ((legalField gr && legalField xr) = false ∧
        t = raiseFault .illegalInstruction s.pc (word0Of Mnemonic.halt.opc gr xr) s) ∨
      ∃ r x, Reg.ofField gr = some r ∧ Reg.ofField xr = some x ∧ t = setHalted true (setPc (npc .halt s) s) := by
  unfold execHalt at h
  rcases withFields_cases .halt gr xr s _ with ⟨r, x, hr, hx, he⟩ | ⟨hl, he⟩ <;> rw [he] at h <;> cases h
  · exact .inr ⟨r, x, hr, hx, rfl⟩
  · exact .inl ⟨hl, rfl⟩

/-- What SYSCALL can do. -/
theorem execSyscall_next {id : Byte} {s t : State} (h : execSyscall id s = .next t) :
    ((legalField (Instr.syscall id).gr && legalField (Instr.syscall id).xr) = false ∧
        t = raiseFault .illegalInstruction s.pc
          (word0Of Mnemonic.syscall.opc (Instr.syscall id).gr (Instr.syscall id).xr) s) ∨
      ∃ r x, Reg.ofField (Instr.syscall id).gr = some r ∧ Reg.ofField (Instr.syscall id).xr = some x ∧
        t = trapWith Config.handler id (setPc (npc .syscall s) s) := by
  unfold execSyscall syscallWith at h
  rcases withFields_cases .syscall (Instr.syscall id).gr (Instr.syscall id).xr s _ with
    ⟨r, x, hr, hx, he⟩ | ⟨hl, he⟩ <;> rw [he] at h <;> cases h
  · exact .inr ⟨r, x, hr, hx, rfl⟩
  · exact .inl ⟨hl, rfl⟩

end Sys2Proof.Machine
end

