-- ==== Sys2Proof/Tests/Slice0.lean ====
section
/-! SUPPORT. Tests on fixed values, each from the spec's own text (spec/30_encoding.md R71, R76;
spec/95_test_vectors.md; spec/49_disassembler.md R210), the smoke test of WellFormed, and for every statement with
hypotheses a state and operands that meet them. -/

namespace Sys2Proof.Tests

open Sys2Proof.Machine

/-! ## Helpers -/

/-- The reset state with some cells, listed in rising order. -/
def withCells (m : Memory) : State := { State.reset with mem := m }

/-- What a read of the state gives after one step. -/
def after {α : Type} (s : State) (f : State → α) : Option α :=
  match step s with
  | .next t => some (f t)
  | .fault _ => none
  | .refused _ => none

/-- GR1, FR and PC after one step of an instruction on GR1 and the cell 0x0100: `op`10 0100 of the vectors. -/
def onGr1 (w0 a b : Word) : Option (Word × Word × Word) :=
  after { withCells [(0, w0), (1, 0x0100), (0x0100, b)] with gr1 := a } fun t => (t.gr1, t.fr, t.pc)

/-- FR and PC after one comparison of GR2 with the cell 0x0100. -/
def compared (w0 a b : Word) : Option (Word × Word × Word) :=
  after { withCells [(0, w0), (1, 0x0100), (0x0100, b)] with gr2 := a, fr := 0x1111 } fun t => (t.gr2, t.fr, t.pc)

/-- PC after a jump to 0x0123 at 0x0010. -/
def jumped (w0 fr : Word) : Option Word :=
  after { withCells [(0x0010, w0), (0x0011, 0x0123)] with pc := 0x0010, fr := fr } fun t => t.pc

/-- The halted flag, the fault record, GR1, FR and PC after one step. -/
def record (s : State) : Option (Bool × FaultCause × Word × Word × Word × Word) :=
  after s fun t => (t.halted, t.faultCause, t.faultAddr, t.faultWord, t.gr1, t.pc)

/-! ## Decoding: every constructor's word written out from R71 and R76 -/

theorem test_decode_halt : decode 0b0000000000010010 0x1234 = .ok (.halt 1 2) := by decide

theorem test_decode_ld : decode 0b0001000000100000 0x1234 = .ok (.ld 2 0 0x1234) := by decide

theorem test_decode_st : decode 0b0001000100000100 0x1234 = .ok (.st 0 4 0x1234) := by decide

theorem test_decode_lea : decode 0b0001001000110001 0x1234 = .ok (.lea 3 1 0x1234) := by decide

theorem test_decode_add : decode 0b0001001101000011 0x1234 = .ok (.add 4 3 0x1234) := by decide

theorem test_decode_sub : decode 0b0001010000010010 0x1234 = .ok (.sub 1 2 0x1234) := by decide

theorem test_decode_mul : decode 0b0001010100100000 0x1234 = .ok (.mul 2 0 0x1234) := by decide

theorem test_decode_div : decode 0b0001011000000100 0x1234 = .ok (.div 0 4 0x1234) := by decide

theorem test_decode_mod : decode 0b0001011100110001 0x1234 = .ok (.mod 3 1 0x1234) := by decide

theorem test_decode_and : decode 0b0001100001000011 0x1234 = .ok (.and 4 3 0x1234) := by decide

theorem test_decode_or : decode 0b0001100100010010 0x1234 = .ok (.or 1 2 0x1234) := by decide

theorem test_decode_eor : decode 0b0001101000100000 0x1234 = .ok (.eor 2 0 0x1234) := by decide

theorem test_decode_sla : decode 0b0001101100000100 0x1234 = .ok (.sla 0 4 0x1234) := by decide

theorem test_decode_sra : decode 0b0001110000110001 0x1234 = .ok (.sra 3 1 0x1234) := by decide

theorem test_decode_sll : decode 0b0001110101000011 0x1234 = .ok (.sll 4 3 0x1234) := by decide

theorem test_decode_srl : decode 0b0001111000010010 0x1234 = .ok (.srl 1 2 0x1234) := by decide

theorem test_decode_cpa : decode 0b0001111100100000 0x1234 = .ok (.cpa 2 0 0x1234) := by decide

theorem test_decode_cpl : decode 0b0010000000000100 0x1234 = .ok (.cpl 0 4 0x1234) := by decide

theorem test_decode_jmp : decode 0b0010000100110001 0x1234 = .ok (.jmp 3 1 0x1234) := by decide

theorem test_decode_jpz : decode 0b0010001001000011 0x1234 = .ok (.jpz 4 3 0x1234) := by decide

theorem test_decode_jmi : decode 0b0010001100010010 0x1234 = .ok (.jmi 1 2 0x1234) := by decide

theorem test_decode_jnz : decode 0b0010010000100000 0x1234 = .ok (.jnz 2 0 0x1234) := by decide

theorem test_decode_jze : decode 0b0010010100000100 0x1234 = .ok (.jze 0 4 0x1234) := by decide

theorem test_decode_push : decode 0b0010011000110001 0x1234 = .ok (.push 3 1 0x1234) := by decide

theorem test_decode_pop : decode 0b0010011101000011 0x1234 = .ok (.pop 4 3) := by decide

theorem test_decode_call : decode 0b0010100000010010 0x1234 = .ok (.call 1 2 0x1234) := by decide

theorem test_decode_ret : decode 0b0010100100100000 0x1234 = .ok (.ret 2 0) := by decide

theorem test_decode_syscall : decode 0b0010101000000100 0x1234 = .ok (.syscall 0b00000100) := by decide

/-- The source's own word (S1). -/
theorem test_decode_source_word : decode 0x1010 0x0005 = .ok (.ld 1 0 0x0005) := by decide

/-- Words the engine rejects (spec/95_test_vectors.md 2.1). -/
theorem test_decode_rejects :
    decode 0x2A05 0 = .error (.malformedField 0 5) ∧ decode 0x1350 0 = .error (.malformedField 5 0) ∧
      decode 0x0100 0 = .error (.undefinedOpcode 0x01) ∧ decode 0x0F44 0 = .error (.undefinedOpcode 0x0F) ∧
      decode 0x2B00 0 = .error (.undefinedOpcode 0x2B) ∧ decode 0xFFFF 0 = .error (.malformedField 15 15) := by
  decide

/-- Word 1 stands in bits 31 to 16 of a table word. -/
theorem test_decodeTableWord :
    decodeTableWord 32 0x00051010 = some (.ld 1 0 0x0005) ∧ decodeTableWord 16 0x2720 = some (.pop 2 0) ∧
      decodeTableWord 16 0x0100 = none := by
  decide

/-- The words of spec/95_test_vectors.md, encoded. -/
theorem test_encode :
    encode (.add 1 2 0x0020) = [0x1312, 0x0020] ∧ encode (.pop 2 0) = [0x2720] ∧ encode (.syscall 0x44) = [0x2A44] ∧
      encode (.halt 3 4) = [0x0034] ∧ assemble (.push 3 4 0x0001) = [0x2604, 0x0001] := by
  decide

/-! ## WellFormed refuses an ill-formed term for each of its checks -/

theorem test_wellFormed_gr : (Instr.ld 5 0 0).wellFormed = false ∧ (Instr.jmp 5 0 0).wellFormed = false := by decide

theorem test_wellFormed_xr : (Instr.add 0 5 0).wellFormed = false ∧ (Instr.ret 0 15).wellFormed = false := by decide

theorem test_wellFormed_syscall_low : (Instr.syscall 0x05).wellFormed = false := by decide

theorem test_wellFormed_syscall_high : (Instr.syscall 0x50).wellFormed = false := by decide

theorem test_wellFormed_accepts :
    (Instr.st 4 4 0xFFFF).wellFormed = true ∧ (Instr.syscall 0x44).wellFormed = true := by
  decide

/-! ## One step of each instruction (spec/95_test_vectors.md) -/

/-- S2. -/
theorem test_halt : after (withCells []) (fun t => (t.halted, t.pc, t.faultCause)) = some (true, 1, .none) := by decide

/-- 2.9: HALT at 0xFFFF; the advance wraps. -/
theorem test_halt_wraps : after { withCells [] with pc := 0xFFFF } (fun t => (t.halted, t.pc)) = some (true, 0) := by
  decide

/-- S1. -/
theorem test_ld :
    after (withCells [(0, 0x1010), (1, 0x0005), (5, 42)]) (fun t => (t.gr1, t.pc, t.fr, t.halted))
      = some (42, 2, 0, false) := by
  decide

/-- 2.2: the effective address wraps. -/
theorem test_ld_index_wraps :
    after { withCells [(0, 0x1012), (1, 0xFFFE), (3, 0x1234)] with gr2 := 5 } (fun t => (t.gr1, t.pc))
      = some (0x1234, 2) := by
  decide

/-- 2.2: indexed by SP. -/
theorem test_st_index_sp :
    after { withCells [(0, 0x1114), (1, 0x0001)] with gr1 := 0x0055 } (fun t => (memRead 0xFC01 t, t.pc, t.fr))
      = some (0x0055, 2, 0) := by
  decide

/-- P4: a store into the code. -/
theorem test_st_removes_a_cell :
    after { withCells [(2, 0x1100), (3, 0x0004), (4, 0x2100)] with pc := 2 } (fun t => (t.mem, t.pc))
      = some ([(2, 0x1100), (3, 0x0004)], 4) := by
  decide

/-- 2.2: register and index the same. -/
theorem test_lea_same_register :
    after { withCells [(0, 0x1211), (1, 0x0001)] with gr1 := 0xFFFF } (fun t => (t.gr1, t.fr, t.pc))
      = some (0, 0, 2) := by
  decide

/-- 2.2: no index. -/
theorem test_lea :
    after (withCells [(0, 0x1230), (1, 0xFFFF)]) (fun t => (t.gr3, t.fr, t.pc)) = some (0xFFFF, 0xFFFF, 2) := by
  decide

/-- 2.3. -/
theorem test_add :
    onGr1 0x1310 0x7FFF 0x0001 = some (0x8000, 0x8000, 2) ∧
      onGr1 0x1310 0xFFFF 0x0001 = some (0x0000, 0x0000, 2) ∧
      onGr1 0x1310 0x8000 0x8000 = some (0x0000, 0x0000, 2) := by
  decide

/-- 2.3. -/
theorem test_sub :
    onGr1 0x1410 0x8000 0x0001 = some (0x7FFF, 0x7FFF, 2) ∧
      onGr1 0x1410 0x0000 0x8000 = some (0x8000, 0x8000, 2) ∧
      onGr1 0x1410 0x0005 0x0007 = some (0xFFFE, 0xFFFE, 2) := by
  decide

/-- 2.3. -/
theorem test_mul :
    onGr1 0x1510 0x0100 0x0100 = some (0x0000, 0x0000, 2) ∧
      onGr1 0x1510 0xFFFD 0x0005 = some (0xFFF1, 0xFFF1, 2) ∧
      onGr1 0x1510 0x8000 0xFFFF = some (0x8000, 0x8000, 2) := by
  decide

/-- 2.3. -/
theorem test_div :
    onGr1 0x1610 0xFFF9 0x0002 = some (0xFFFD, 0xFFFD, 2) ∧
      onGr1 0x1610 0x0007 0xFFFE = some (0xFFFD, 0xFFFD, 2) ∧
      onGr1 0x1610 0x8000 0xFFFF = some (0x8000, 0x8000, 2) ∧
      onGr1 0x1610 0x8000 0x0002 = some (0xC000, 0xC000, 2) := by
  decide

/-- 2.3. -/
theorem test_div_by_zero :
    record { withCells [(0, 0x1610), (1, 0x0100)] with gr1 := 5, fr := 0x1111 }
      = some (true, .arithmeticFault, 0, 0x1610, 5, 0) := by
  decide

/-- 2.3. -/
theorem test_mod :
    onGr1 0x1710 0xFFF9 0x0002 = some (0xFFFF, 0xFFFF, 2) ∧
      onGr1 0x1710 0x0007 0xFFFE = some (0x0001, 0x0001, 2) ∧
      onGr1 0x1710 0xFFFB 0x0007 = some (0xFFFB, 0xFFFB, 2) ∧
      onGr1 0x1710 0x8000 0x7FFF = some (0xFFFF, 0xFFFF, 2) := by
  decide

/-- 2.3. -/
theorem test_mod_by_zero :
    record { withCells [(0, 0x1710), (1, 0x0100)] with gr1 := 5, fr := 0x1111 }
      = some (true, .arithmeticFault, 0, 0x1710, 5, 0) := by
  decide

/-- 2.4, on GR1. -/
theorem test_and :
    onGr1 0x1810 0x3FFF 0x00FF = some (0x00FF, 0x00FF, 2) ∧
      onGr1 0x1810 0xF0F0 0x8000 = some (0x8000, 0x8000, 2) := by
  decide

/-- 2.4, on GR1. -/
theorem test_or :
    onGr1 0x1910 0x0F00 0x80F0 = some (0x8FF0, 0x8FF0, 2) ∧
      onGr1 0x1910 0x0001 0xFFFF = some (0xFFFF, 0xFFFF, 2) := by
  decide

/-- 2.4, on GR1. -/
theorem test_eor :
    onGr1 0x1A10 0x00FF 0xFFFF = some (0xFF00, 0xFF00, 2) ∧
      onGr1 0x1A10 0x5A5A 0x5A5A = some (0x0000, 0x0000, 2) := by
  decide

/-- 2.5. -/
theorem test_sla :
    onGr1 0x1B10 0xC000 0x0001 = some (0x8000, 0x8000, 2) ∧
      onGr1 0x1B10 0x7FFF 0x000F = some (0x8000, 0x8000, 2) ∧
      onGr1 0x1B10 0xFFFF 0x0011 = some (0x0000, 0x0000, 2) := by
  decide

/-- 2.5. -/
theorem test_sra :
    onGr1 0x1C10 0x8001 0x0001 = some (0xC000, 0xC000, 2) ∧
      onGr1 0x1C10 0x8000 0x0010 = some (0xFFFF, 0xFFFF, 2) ∧
      onGr1 0x1C10 0x7FFF 0x0010 = some (0x0000, 0x0000, 2) := by
  decide

/-- 2.5. -/
theorem test_sll :
    onGr1 0x1D10 0x8001 0x0001 = some (0x0002, 0x0002, 2) ∧
      onGr1 0x1D10 0x00FF 0x0008 = some (0xFF00, 0xFF00, 2) ∧
      onGr1 0x1D10 0x1234 0x7FFF = some (0x0000, 0x0000, 2) := by
  decide

/-- 2.5. -/
theorem test_srl :
    onGr1 0x1E10 0x8001 0x0001 = some (0x4000, 0x4000, 2) ∧
      onGr1 0x1E10 0x8000 0x000F = some (0x0001, 0x0001, 2) ∧
      onGr1 0x1E10 0xFFFF 0x0011 = some (0x0000, 0x0000, 2) := by
  decide

/-- 2.5. -/
theorem test_sla_negative_count :
    record { withCells [(0, 0x1B10), (1, 0x0100), (0x0100, 0x8000)] with gr1 := 0x1234 }
      = some (true, .arithmeticFault, 0, 0x1B10, 0x1234, 0) := by
  decide

/-- 2.5. -/
theorem test_sra_negative_count :
    record { withCells [(0, 0x1C10), (1, 0x0100), (0x0100, 0xFFFF)] with gr1 := 0x1234 }
      = some (true, .arithmeticFault, 0, 0x1C10, 0x1234, 0) := by
  decide

/-- 2.5. -/
theorem test_sll_negative_count :
    record { withCells [(0, 0x1D10), (1, 0x0100), (0x0100, 0xFFFF)] with gr1 := 0x1234 }
      = some (true, .arithmeticFault, 0, 0x1D10, 0x1234, 0) := by
  decide

/-- 2.5. -/
theorem test_srl_negative_count :
    record { withCells [(0, 0x1E10), (1, 0x0100), (0x0100, 0x8000)] with gr1 := 0x1234 }
      = some (true, .arithmeticFault, 0, 0x1E10, 0x1234, 0) := by
  decide

/-- 2.6. -/
theorem test_cpa :
    compared 0x1F20 0x0003 0x0005 = some (0x0003, 0xFFFE, 2) ∧
      compared 0x1F20 0x8000 0x0001 = some (0x8000, 0x7FFF, 2) ∧
      compared 0x1F20 0x0001 0x8000 = some (0x0001, 0x8001, 2) := by
  decide

/-- 2.6. -/
theorem test_cpl :
    compared 0x2020 0x0003 0x0005 = some (0x0003, 0xFFFE, 2) ∧
      compared 0x2020 0xFFFF 0x0001 = some (0xFFFF, 0xFFFE, 2) ∧
      compared 0x2020 0x0000 0xFFFF = some (0x0000, 0x0001, 2) := by
  decide

/-- 2.7: FR 0x0000, 0x7FFF, 0x8000. -/
theorem test_jmp :
    jumped 0x2100 0x0000 = some 0x0123 ∧
      jumped 0x2100 0x7FFF = some 0x0123 ∧
      jumped 0x2100 0x8000 = some 0x0123 := by
  decide

/-- 2.7: FR 0x0000, 0x7FFF, 0x8000. -/
theorem test_jpz :
    jumped 0x2200 0x0000 = some 0x0123 ∧
      jumped 0x2200 0x7FFF = some 0x0123 ∧
      jumped 0x2200 0x8000 = some 0x0012 := by
  decide

/-- 2.7: FR 0x0000, 0x7FFF, 0x8000. -/
theorem test_jmi :
    jumped 0x2300 0x0000 = some 0x0012 ∧
      jumped 0x2300 0x7FFF = some 0x0012 ∧
      jumped 0x2300 0x8000 = some 0x0123 := by
  decide

/-- 2.7: FR 0x0000, 0x7FFF, 0x8000. -/
theorem test_jnz :
    jumped 0x2400 0x0000 = some 0x0012 ∧
      jumped 0x2400 0x7FFF = some 0x0123 ∧
      jumped 0x2400 0x8000 = some 0x0123 := by
  decide

/-- 2.7: FR 0x0000, 0x7FFF, 0x8000. -/
theorem test_jze :
    jumped 0x2500 0x0000 = some 0x0123 ∧
      jumped 0x2500 0x7FFF = some 0x0012 ∧
      jumped 0x2500 0x8000 = some 0x0012 := by
  decide

/-- 2.7: a computed jump that wraps. -/
theorem test_jmp_indexed :
    after { withCells [(0x0010, 0x2103), (0x0011, 0x0100)] with pc := 0x0010, gr3 := 0xFFF0 } (fun t => t.pc)
      = some 0x00F0 := by
  decide

/-- 2.8: a memory word is pushed, and SP wraps. -/
theorem test_push_wraps :
    after { withCells [(0, 0x2600), (1, 0x0010), (0x0010, 9)] with gr4 := 0 }
        (fun t => (memRead 0xFFFF t, t.gr4, t.pc))
      = some (9, 0xFFFF, 2) := by
  decide

/-- 2.8: the effective address uses SP before the push. -/
theorem test_push_duplicates_top :
    after { withCells [(0, 0x2604), (0xFBFF, 0x0015)] with gr4 := 0xFBFF } (fun t => (memRead 0xFBFE t, t.gr4))
      = some (0x0015, 0xFBFE) := by
  decide

/-- 2.8. -/
theorem test_pop :
    after { withCells [(0, 0x2713), (0xFBFF, 0x0015)] with gr4 := 0xFBFF } (fun t => (t.gr1, t.gr4, t.pc))
      = some (0x0015, 0xFC00, 1) := by
  decide

/-- 2.8: POP into GR4 leaves the popped word plus one. -/
theorem test_pop_sp :
    after { withCells [(0, 0x2740), (0xFBFF, 0x1234)] with gr4 := 0xFBFF } (fun t => (t.gr4, t.pc))
      = some (0x1235, 1) := by
  decide

/-- 2.8: CALL through a pointer. -/
theorem test_call :
    after { withCells [(4, 0x2800), (5, 0x0031), (0x0031, 0x0010)] with pc := 4, gr4 := 0xFBFF }
        (fun t => (memRead 0xFBFE t, t.gr4, t.pc))
      = some (6, 0xFBFE, 0x0010) := by
  decide

/-- 2.8: CALL reads back its own return address. -/
theorem test_call_own_cell :
    after { withCells [(4, 0x2800), (5, 0xFBFF), (0xFBFF, 0x0099)] with pc := 4 } (fun t => (t.gr4, t.pc))
      = some (0xFBFF, 6) := by
  decide

/-- 2.8. -/
theorem test_ret :
    after { withCells [(0x0012, 0x2900), (0xFBFE, 0xFFFE)] with pc := 0x0012, gr4 := 0xFBFE } (fun t => (t.pc, t.gr4))
      = some (0xFFFE, 0xFBFF) := by
  decide

/-- 2.9: no handler. -/
theorem test_syscall_without_handler : after (withCells [(0, 0x2A12)]) id = some { withCells [(0, 0x2A12)] with pc := 1 } := by
  decide

/-- P6's handler: GR0 increased by the id. -/
def addsId (_ : Nat) (v : Config.HandlerView) (id : Byte) : Config.HandlerReply where
  gr0 := v.gr0 + BitVec.setWidth 16 id
  gr1 := v.gr1
  gr2 := v.gr2
  gr3 := v.gr3
  gr4 := v.gr4
  pc := v.pc
  fr := v.fr
  halted := v.halted
  writes := []

/-- P6, step 1, under that handler. -/
theorem test_syscall_with_handler :
    syscallWith addsId 0x12 { withCells [(0, 0x2A12)] with hook := some 0 }
      = .next { withCells [(0, 0x2A12)] with hook := some 0, gr0 := 0x0012, pc := 1 } :=
  rfl

/-! ## Faults, fetch, the host -/

/-- 2.10: every kind of illegal word, at 0x0020. -/
theorem test_illegal_words :
    ([0xFF00, 0x0100, 0x2B00, 0x1350, 0x1305, 0x2150, 0x27F0, 0x29A0, 0x2A05, 0x1617] : List Word).all (fun w =>
      record { withCells [(0x0020, w), (0x0021, 0x0100)] with pc := 0x0020, gr1 := 1 }
        == some (true, .illegalInstruction, 0x0020, w, 1, 0x0020)) = true := by
  decide

/-- 2.2: Word 1 is read at 0x0000 when Word 0 is at 0xFFFF. -/
theorem test_fetch_wraps :
    after { withCells [(0, 0x0007), (7, 0x0099), (0xFFFF, 0x1010)] with pc := 0xFFFF } (fun t => (t.gr1, t.pc))
      = some (0x0099, 1) := by
  decide

/-- The host's one-instruction state runs that instruction. -/
theorem test_withFetchWord : after (State.reset.withFetchWord 32 0x12341230) (fun t => (t.gr3, t.pc)) = some (0x1234, 2) := by
  decide

/-- R239: a restore brings GR1 and memory back and keeps the handler. -/
theorem test_restore :
    restore (snapshot { withCells [(5, 7)] with gr1 := 9 }) { State.reset with hook := some 3 }
      = { withCells [(5, 7)] with gr1 := 9, hook := some 3 } :=
  rfl

/-- R237: a batch stops when halted, and counts the HALT. -/
theorem test_stepBatch : (stepBatch 5 (withCells [(0, 0x2900), (0xFC00, 0x0007)])).2 = 2 := by decide

/-- R210: worked lines. -/
theorem test_render_lines :
    render [(0, 0x1312), (1, 0x0020)] 0 1 = ["ADD GR1, 0x0020, GR2"] ∧
      render [(0, 0x2030), (1, 0x0045)] 0 1 = ["CPL GR3, 0x0045"] ∧
      render [(0, 0x2109), (1, 0x0004)] 0 1 = ["JMP 0x0004, GR9"] ∧
      render [(0, 0x2A4F)] 0 1 = ["syscall 79"] ∧ render [(0, 0x2713)] 0 1 = ["POP GR1"] :=
  ⟨rfl, rfl, rfl, rfl, rfl⟩

/-- 2.11: the two vectors of several lines. -/
theorem test_render_several :
    render [(0x0100, 0x1010), (0x0101, 0x0005), (0x0102, 0x1350), (0x0103, 0x0010)] 0x0100 5
        = ["LD GR1, 0x0005", "unknown"] ∧
      render [(0, 0x0005), (0xFFFF, 0x1010)] 0xFFFF 2 = ["LD GR1, 0x0005", "HALT"] :=
  ⟨rfl, rfl⟩

/-- R208: the other class of CPL. -/
theorem test_render_cpl_class : renderWith .addressOnly [(0, 0x2030), (1, 0x0045)] 0 1 = ["CPL 0x0045"] := rfl

/-- R6: the constants of the machine, and the codes of the fault port (R29). -/
theorem test_constants :
    Config.memWords = 65536 ∧ Config.numGr = 5 ∧ Config.maxRegField = 4 ∧ Config.pcMax = 0xFC00 ∧
      FaultCause.code .none = 0 ∧ FaultCause.code .illegalInstruction = 1 ∧ FaultCause.code .arithmeticFault = 2 := by
  decide

/-! ## Witnesses: for every statement with hypotheses, a state and operands that meet them all -/

/-- A state whose cell 0x0100 holds `b`, with 0x8000 in GR1. -/
def operand (b : Word) : State := { withCells [(0x0100, b)] with gr1 := 0x8000 }

theorem witness_DecodeOfEncode : (Instr.st 4 4 0xFFFF).WellFormed ∧ (Instr.syscall 0x44).WellFormed := by decide

theorem witness_EncodeOfDecode :
    decode 0x1344 0xFFFF = .ok (.add 4 4 0xFFFF) ∧ decode 0x2A44 0xFFFF = .ok (.syscall 0x44) := by
  decide

theorem witness_AssembledWords : (Instr.call 4 4 0xFFFF).WellFormed ∧ (Instr.pop 4 4).WellFormed := by decide

/-- No index, and the index register at the end of the range, whose sum wraps to 0. -/
theorem witness_EffectiveAddressSum :
    Reg.ofField 0 = some .gr0 ∧ Reg.ofField 4 = some .gr4 ∧ (4 : Nibble) ≠ 0 ∧
      effectiveAddress .gr4 0x0400 State.reset = 0 := by
  decide

theorem witness_LdLoadsTheCell :
    Reg.ofField 0 = some .gr0 ∧ Reg.ofField 4 = some .gr4 ∧ ∃ t, execLd 4 4 0x0400 State.reset = .next t :=
  ⟨rfl, rfl, ⟨_, rfl⟩⟩

theorem witness_StStoresTheRegister :
    Reg.ofField 0 = some .gr0 ∧ Reg.ofField 4 = some .gr4 ∧ ∃ t, execSt 4 4 0x0400 State.reset = .next t :=
  ⟨rfl, rfl, ⟨_, rfl⟩⟩

theorem witness_LeaGivesTheAddress :
    Reg.ofField 0 = some .gr0 ∧ Reg.ofField 4 = some .gr4 ∧ ∃ t, execLea 4 4 0x0400 State.reset = .next t :=
  ⟨rfl, rfl, ⟨_, rfl⟩⟩

theorem witness_AddSubMulWrap :
    Reg.ofField 0 = some .gr0 ∧ Reg.ofField 4 = some .gr4 ∧ ∃ t, execAdd 4 4 0x0400 State.reset = .next t :=
  ⟨rfl, rfl, ⟨_, rfl⟩⟩

/-- The divisors 1 and -1, with the dividend -32768. -/
theorem witness_DivModTruncate :
    Reg.ofField 1 = some .gr1 ∧ Reg.ofField 0 = some .gr0 ∧
      memRead (effectiveAddress .gr0 0x0100 (operand 0x0001)) (operand 0x0001) ≠ 0 ∧
      memRead (effectiveAddress .gr0 0x0100 (operand 0xFFFF)) (operand 0xFFFF) ≠ 0 ∧
      readReg .gr1 (operand 0xFFFF) = 0x8000 := by
  decide

theorem witness_DivModByZeroFault :
    Reg.ofField 1 = some .gr1 ∧ Reg.ofField 0 = some .gr0 ∧
      memRead (effectiveAddress .gr0 0x0101 (operand 1)) (operand 1) = 0 := by
  decide

/-- The divisor 1, and the counts 0 and 15 at the ends of the range. -/
theorem witness_PoliciesAgreeOnOrdinaryOperands :
    (0x0001 : Word) ≠ 0 ∧ (0x0000 : Word).toNat ≤ 15 ∧ (0x000F : Word).toNat ≤ 15 := by
  decide

theorem witness_LogicBitByBit :
    Reg.ofField 0 = some .gr0 ∧ Reg.ofField 4 = some .gr4 ∧ ∃ t, execAnd 4 4 0x0400 State.reset = .next t :=
  ⟨rfl, rfl, ⟨_, rfl⟩⟩

/-- The counts 0 and 32767 at the ends of the range. -/
theorem witness_ShiftsByEveryCount :
    Reg.ofField 1 = some .gr1 ∧ Reg.ofField 0 = some .gr0 ∧
      0 ≤ (memRead (effectiveAddress .gr0 0x0101 (operand 0)) (operand 0)).toInt ∧
      0 ≤ (memRead (effectiveAddress .gr0 0x0100 (operand 0x7FFF)) (operand 0x7FFF)).toInt := by
  decide

/-- The counts -32768 and -1 at the ends of the range. -/
theorem witness_NegativeShiftCountFaults :
    Reg.ofField 1 = some .gr1 ∧ Reg.ofField 0 = some .gr0 ∧
      (memRead (effectiveAddress .gr0 0x0100 (operand 0x8000)) (operand 0x8000)).toInt < 0 ∧
      (memRead (effectiveAddress .gr0 0x0100 (operand 0xFFFF)) (operand 0xFFFF)).toInt < 0 := by
  decide

/-- For shifts the counts 0 and 32767; for comparisons any operand, a negative one too. -/
theorem witness_TwinInstructionsAgree :
    Reg.ofField 4 = some .gr4 ∧ Reg.ofField 0 = some .gr0 ∧
      0 ≤ (memRead (effectiveAddress .gr0 0x0101 (operand 0)) (operand 0)).toInt ∧
      0 ≤ (memRead (effectiveAddress .gr0 0x0100 (operand 0x7FFF)) (operand 0x7FFF)).toInt := by
  decide

theorem witness_ComparisonsSetFlagOnly :
    Reg.ofField 0 = some .gr0 ∧ Reg.ofField 4 = some .gr4 ∧ ∃ t, execCpa 4 4 0x0400 State.reset = .next t :=
  ⟨rfl, rfl, ⟨_, rfl⟩⟩

theorem witness_JumpsGoOnTheirCondition :
    Reg.ofField 0 = some .gr0 ∧ Reg.ofField 4 = some .gr4 ∧ ∃ t, execJmi 4 4 0x0400 State.reset = .next t :=
  ⟨rfl, rfl, ⟨_, rfl⟩⟩

/-- FR -32768 and -1: both negative, neither zero; JMI is taken from both. -/
theorem witness_JumpsReadSignAndZeroOnly :
    (Instr.jmi 0 0 0x0123).mnemonic ≠ .syscall ∧
      (s16 0xFFFF < 0 ↔ s16 ({ State.reset with fr := 0x8000 } : State).fr < 0) ∧
      ((0xFFFF : Word) = 0 ↔ ({ State.reset with fr := 0x8000 } : State).fr = 0) ∧
      (∃ t, exec (.jmi 0 0 0x0123) { State.reset with fr := 0x8000 } = .next t) ∧
      ∃ t, exec (.jmi 0 0 0x0123) (setFr 0xFFFF { State.reset with fr := 0x8000 }) = .next t :=
  ⟨by decide, by decide, by decide, ⟨_, rfl⟩, ⟨_, rfl⟩⟩

theorem witness_PushStoresAndDecrements :
    Reg.ofField 0 = some .gr0 ∧ Reg.ofField 4 = some .gr4 ∧ ∃ t, execPush 4 4 0x0400 State.reset = .next t :=
  ⟨rfl, rfl, ⟨_, rfl⟩⟩

/-- Into GR0 and into GR4. -/
theorem witness_PopLoadsAndIncrements :
    Reg.ofField 0 = some .gr0 ∧ Reg.ofField 4 = some .gr4 ∧ Reg.gr0 ≠ Reg.gr4 ∧ ∃ t, execPop 4 0 State.reset = .next t :=
  ⟨rfl, rfl, by decide, ⟨_, rfl⟩⟩

/-- The pointer in the cell pushed to, and elsewhere. -/
theorem witness_CallPushesAndJumps :
    Reg.ofField 0 = some .gr0 ∧ Reg.ofField 4 = some .gr4 ∧
      effectiveAddress .gr0 0xFBFF State.reset = readReg .gr4 State.reset - 1 ∧
      effectiveAddress .gr4 0x0000 State.reset ≠ readReg .gr4 State.reset - 1 := by
  decide

theorem witness_RetPopsThePc :
    Reg.ofField 0 = some .gr0 ∧ Reg.ofField 4 = some .gr4 ∧ ∃ t, execRet 4 4 State.reset = .next t :=
  ⟨rfl, rfl, ⟨_, rfl⟩⟩

theorem witness_PushThenPopRoundTrip :
    Reg.ofField 0 = some .gr0 ∧ Reg.ofField 3 = some .gr3 ∧ Reg.ofField 4 = some .gr4 ∧ Reg.gr3 ≠ Reg.gr4 := by
  decide

/-- The state right after the CALL is such a `u`. -/
theorem witness_CallThenRetRoundTrip :
    Reg.ofField 0 = some .gr0 ∧ Reg.ofField 4 = some .gr4 ∧
      ∃ t u, exec (.call 0 0 0x0031) State.reset = .next t ∧ readReg .gr4 u = readReg .gr4 t ∧
        memRead (readReg .gr4 t) u = memRead (readReg .gr4 t) t :=
  ⟨rfl, rfl, _, _, rfl, rfl, rfl⟩

theorem witness_HaltSetsHalted :
    Reg.ofField 0 = some .gr0 ∧ Reg.ofField 4 = some .gr4 ∧ ∃ t, execHalt 4 4 State.reset = .next t :=
  ⟨rfl, rfl, ⟨_, rfl⟩⟩

/-- The ids 0x00 and 0x44 at the ends of the range. -/
theorem witness_SyscallWithoutHandler :
    (0x00 : Byte).toNat / 16 ≤ 4 ∧ (0x00 : Byte).toNat % 16 ≤ 4 ∧ (0x44 : Byte).toNat / 16 ≤ 4 ∧
      (0x44 : Byte).toNat % 16 ≤ 4 ∧ State.reset.hook = none := by
  decide

theorem witness_SyscallCallsTheHandler :
    (0x44 : Byte).toNat / 16 ≤ 4 ∧ (0x44 : Byte).toNat % 16 ≤ 4 ∧
      ({ State.reset with hook := some 0 } : State).hook = some 0 := by
  decide

/-- The fields 5 and 15 at the ends of the range, each side. -/
theorem witness_IllegalFieldFaultsInExec :
    4 < (Instr.add 5 0 0).gr.toNat ∧ 4 < (Instr.add 15 0 0).gr.toNat ∧ 4 < (Instr.ret 0 5).xr.toNat ∧
      4 < (Instr.syscall 0xFF).xr.toNat := by
  decide

theorem witness_IllegalFieldFaults :
    (withCells [(0, 0x1350)]).halted = false ∧ 4 < (grField (memRead 0 (withCells [(0, 0x1350)]))).toNat ∧
      4 < (xrField (memRead 0 (withCells [(0, 0xFF0F)]))).toNat := by
  decide

/-- The bytes 0x01, 0x0F, 0x2B and 0xFF at the ends of the two ranges. -/
theorem witness_UndefinedOpcodeFaults :
    ([0x0100, 0x0F00, 0x2B00, 0xFF00] : List Word).all (fun w =>
      !(withCells [(0, w)]).halted && opField (memRead 0 (withCells [(0, w)])) != 0
        && (decide ((opField (memRead 0 (withCells [(0, w)]))).toNat < 0x10)
          || decide (0x2A < (opField (memRead 0 (withCells [(0, w)]))).toNat))) = true := by
  decide

theorem witness_StepRunsTheDecodedInstruction :
    (withCells [(0, 0x1010), (1, 0x0005)]).halted = false ∧
      decode (memRead 0 (withCells [(0, 0x1010), (1, 0x0005)])) (memRead (0 + 1) (withCells [(0, 0x1010), (1, 0x0005)]))
        = .ok (.ld 1 0 0x0005) := by
  decide

theorem witness_HaltedStepDoesNothing : ({ State.reset with halted := true } : State).halted = true := rfl

theorem witness_ArithmeticFaultOnlyFromSix :
    State.reset.faultCause ≠ .arithmeticFault ∧
      after (withCells [(0, 0x1610), (1, 0x0100)]) (fun t => t.faultCause) = some .arithmeticFault := by
  decide

/-- One step that runs HALT and one that takes a fault. -/
theorem witness_OnlyHaltFaultOrHandlerHalts :
    (withCells []).halted = false ∧ after (withCells []) (fun t => t.halted) = some true ∧
      after (withCells [(0, 0xFF00)]) (fun t => t.halted) = some true := by
  decide

/-- One instruction of each clause; two that fault too, one of them from a halted state. -/
theorem witness_FlagWrittenByFifteenOnly :
    (∃ t, exec (.st 4 4 0) State.reset = .next t) ∧ (Instr.st 4 4 0).resultProducing = false ∧
      (∃ t, exec (.add 4 4 0) State.reset = .next t) ∧ (Instr.add 4 4 0).resultProducing = true ∧
      (∃ t, exec (.div 4 0 0) State.reset = .next t ∧ t.faultCause = .arithmeticFault) ∧
      ∃ t, exec (.add 5 0 0) { State.reset with halted := true } = .next t ∧ t.faultCause = .illegalInstruction :=
  ⟨⟨_, rfl⟩, rfl, ⟨_, rfl⟩, rfl, ⟨_, rfl, rfl⟩, ⟨_, rfl, rfl⟩⟩

theorem witness_RegisterFrame :
    (∃ t, exec (.pop 1 0) State.reset = .next t) ∧ (Instr.pop 1 0).mayWriteReg .gr0 = false :=
  ⟨⟨_, rfl⟩, rfl⟩

theorem witness_MemoryFrame :
    (∃ t, exec (.push 0 0 0x0010) State.reset = .next t) ∧ (Instr.push 0 0 0x0010).mnemonic ≠ .syscall ∧
      (Instr.push 0 0 0x0010).storedCell State.reset ≠ some 0xFC00 ∧
      (Instr.push 0 0 0x0010).storedCell State.reset = some 0xFBFF :=
  ⟨⟨_, rfl⟩, by decide, by decide, by decide⟩

theorem witness_IgnoredFieldsDoNotMatter : (Instr.jmp 4 0 0x0044).WellFormed ∧ (Instr.halt 4 4).WellFormed := by decide

theorem witness_FaultRecordIsNotRead : ∃ t, step (withCells [(0, 0x1230), (1, 0xFFFF)]) = .next t := ⟨_, rfl⟩

theorem witness_StepKeepsTheHandler : ∃ t, step { State.reset with hook := some 3 } = .next t := ⟨_, rfl⟩

/-- A state that a fault ended, and one that a store is run from. -/
theorem witness_StepKeepsInv :
    Inv { State.reset with faultCause := .illegalInstruction, halted := true } ∧
      Inv (withCells [(0, 0x1110), (1, 0x0100)]) ∧ ∃ t, step (withCells [(0, 0x1110), (1, 0x0100)]) = .next t :=
  ⟨⟨by decide, fun _ => rfl⟩, ⟨by decide, fun h => absurd rfl h⟩, ⟨_, rfl⟩⟩

/-- Start addresses 0 and 65535. -/
theorem witness_ResetMeetsInv :
    (∃ t, resetPort [0x1010, 0x0000] 0 none = .next t) ∧ ∃ t, resetPort [] 65535 (some 0) = .next t :=
  ⟨⟨_, rfl⟩, ⟨_, rfl⟩⟩

theorem witness_CanonicalMemoryIsUnique :
    Memory.wf [(0, 1), (65535, 0xFFFF)] ∧
      Memory.write (Memory.write [] 0xFFFF 0xFFFF) 0 1 = [(0, 1), (65535, 0xFFFF)] := by
  decide

/-- The stored cell as Word 0 and, across the top of memory, as Word 1. -/
theorem witness_FetchSeesStores :
    Reg.ofField 1 = some .gr1 ∧ Reg.ofField 0 = some .gr0 ∧ (∃ t, exec (.st 1 0 0) State.reset = .next t) ∧
      (0 : Word) = effectiveAddress .gr0 0 State.reset ∧ (0xFFFF : Word) + 1 = effectiveAddress .gr0 0 State.reset :=
  ⟨rfl, rfl, ⟨_, rfl⟩, by decide, by decide⟩

/-- Both ways to be a reset state, the start address at the end of its range, and legal fields. -/
theorem witness_ResetStackPointer :
    (State.reset = State.reset ∨ ∃ image startPc hook, resetPort image startPc hook = .next State.reset) ∧
      (∃ t, resetPort [0x2600, 0x0010] 65535 none = .next t) ∧ Reg.ofField 0 = some .gr0 ∧
      Reg.ofField 4 = some .gr4 :=
  ⟨.inl rfl, ⟨_, rfl⟩, rfl, rfl⟩

/-- The ends of both ranges: an empty image and one of one word too many, start addresses 65535 and 65536. -/
theorem witness_ResetPortLeaves :
    (([] : List Word).length ≤ 65536 ∧ 65535 ≤ 65535) ∧ 65536 < (List.replicate 65537 (1 : Word)).length ∧
      65535 < 65536 :=
  ⟨⟨Nat.zero_le _, le_rfl⟩, by rw [List.length_replicate]; omega, by omega⟩

theorem witness_HostMovesKeepCanonicalMemory :
    (withCells [(5, 7)]).mem.wf ∧ (∃ t, hostMove (.alter 5 0) (withCells [(5, 7)]) = .next t) ∧
      (snapshot (withCells [(5, 7)])).mem.wf ∧
      ∃ t, hostMove (.clear (snapshot (withCells [(5, 7)]))) State.reset = .next t :=
  ⟨by decide, ⟨_, rfl⟩, by decide, ⟨_, rfl⟩⟩

theorem witness_RunStopsWhenHalted : ∃ t, runFor 1 State.reset = .next t ∧ t.halted = true := ⟨_, rfl, rfl⟩

/-- The ends of the three ranges. -/
theorem witness_StatusCodeOfFlag :
    0 < (0x0001 : Word).toInt ∧ 0 < (0x7FFF : Word).toInt ∧ (0x8000 : Word).toInt < 0 ∧ (0xFFFF : Word).toInt < 0 ∧
      (0x0000 : Word).toInt = 0 := by
  decide

theorem witness_RenderFollowsTheDecoder :
    decode (Memory.read [(0, 0x2A44)] 0) (Memory.read [(0, 0x2A44)] (0 + 1)) = .ok (.syscall 0x44) := by decide

/-- The three ways to be unknown, and a line that is not, with `xr` 15. -/
theorem witness_RenderStopsAtUnknown :
    4 < (grField (Memory.read [(0, 0x1350)] 0)).toNat ∧ 0x2A < (opField (Memory.read [(0, 0x2B00)] 0)).toNat ∧
      Mnemonic.ofOpc (opField (Memory.read [(0, 0x0500)] 0)) = none ∧
      (grField (Memory.read [(0, 0x2A4F)] 0)).toNat ≤ 4 ∧
      Mnemonic.ofOpc (opField (Memory.read [(0, 0x2A4F)] 0)) = some .syscall := by
  decide

theorem witness_RenderLineCount : "unknown" ∉ render [(0, 0x2720)] 0 2 := by
  have h : render [(0, 0x2720)] 0 2 = ["POP GR2", "HALT"] := rfl
  rw [h]
  simp

theorem witness_HaltAndRetLinesHaveNoOperand :
    (grField (Memory.read [(0, 0x0034)] 0)).toNat ≤ 4 ∧ opField (Memory.read [(0, 0x0034)] 0) = 0x00 ∧
      (grField (Memory.read [(0, 0x294F)] 0)).toNat ≤ 4 ∧ opField (Memory.read [(0, 0x294F)] 0) = 0x29 := by
  decide

end Sys2Proof.Tests
end

section
/-! SUPPORT. The readings of a word as numbers (R8), what the engine's decoder accepts (R78), and what an instruction
does to the control state; from these, the statements of spec/00_scope.md. -/

namespace Sys2Proof.Machine

/-! ## Readings of a word (R8) -/

theorem u16_nonneg (v : Word) : 0 ≤ u16 v := Int.natCast_nonneg _

theorem u16_lt (v : Word) : u16 v < 65536 := by
  have h := v.isLt
  simp only [u16]
  omega

/-- The signed reading by bit 15. -/
theorem s16_eq_ite (v : Word) : s16 v = if v.getLsbD 15 = false then u16 v else u16 v - 65536 := by
  have hmsb : v.msb = v.getLsbD 15 := BitVec.msb_eq_getLsbD_last v
  simp only [s16, u16, BitVec.toInt_eq_msb_cond, hmsb]
  cases v.getLsbD 15 <;> rfl

theorem u16_wrap16 (n : Int) : u16 (wrap16 n) = n % 65536 := by
  have h := Int.emod_nonneg n (b := 65536) (by decide)
  simp only [u16, wrap16, BitVec.toNat_ofInt]
  exact Int.toNat_of_nonneg h

/-! ## Fetch and decode (R78, R101) -/

/-- Word 1 is the cell after Word 0, around the top of memory (R53). -/
@[simp] theorem word1Address_eq (s : State) : word1Address s = s.pc + 1 := by
  simp only [word1Address, wrap16_add, wrap16_u16]
  rfl

/-- What the engine's decoder accepts: a defined opcode byte with both fields legal (R78). -/
theorem decode_ok {w0 w1 : Word} {i : Instr} (h : decode w0 w1 = .ok i) :
    legalField (grField w0) = true ∧ legalField (xrField w0) = true ∧
      ∃ m, Mnemonic.ofOpc (opField w0) = some m ∧ i = m.instr (grField w0) (xrField w0) w1 := by
  unfold decode at h
  split at h
  · rename_i hlegal
    obtain ⟨hg, hx⟩ := Bool.and_eq_true_iff.mp hlegal
    cases hm : Mnemonic.ofOpc (opField w0) with
    | some m =>
      simp only [decodeFields, hm] at h
      cases h
      exact ⟨hg, hx, m, rfl, rfl⟩
    | none =>
      simp only [decodeFields, hm] at h
      cases h
  · cases h

/-- Word 0 put together from a decoded instruction is the word that was fetched. -/
theorem word0_of_decode {w0 w1 : Word} {i : Instr} (h : decode w0 w1 = .ok i) : i.word0 = w0 := by
  obtain ⟨-, -, m, hm, rfl⟩ := decode_ok h
  rw [Instr.word0, mnemonic_instr, gr_instr, xr_instr, opc_of_ofOpc hm, word0Of_fields]

/-! ## The control state -/

/-- Fault entry is precise (R223). -/
theorem faultTaken_raiseFault (c : FaultCause) (w : Word) (s : State) :
    FaultTaken s (raiseFault c s.pc w s) c w :=
  ⟨rfl, rfl, rfl, rfl, rfl, fun r => readReg_raiseFault r c s.pc w s, rfl, rfl, fun _ => rfl⟩

/-- From `s` to `t` either a fault was entered with Word 0 `w0`, or `halted`, the record and the handler are as
before: what every meaning does but HALT's and SYSCALL's. -/
def FaultsOrKeepsControl (w0 : Word) (s t : State) : Prop :=
  (∃ c, c ≠ FaultCause.none ∧ t = raiseFault c s.pc w0 s) ∨ SameControl s t

theorem faultsOrKeepsControl_illegal (w0 : Word) (s : State) :
    FaultsOrKeepsControl w0 s (raiseFault .illegalInstruction s.pc w0 s) :=
  .inl ⟨_, by decide, rfl⟩

theorem resultOp_control {m : Mnemonic} {f : Word → Word → AluResult} {gr xr : Nibble} {adr : Word} {s t : State}
    (h : resultOp m f gr xr adr s = .next t) : FaultsOrKeepsControl (word0Of m.opc gr xr) s t := by
  rcases resultOp_next h with ⟨-, rfl⟩ | ⟨r, x, -, -, ⟨v, -, rfl⟩ | ⟨-, rfl⟩⟩
  · exact faultsOrKeepsControl_illegal _ s
  · exact .inr (by simp [SameControl, SameRecord])
  · exact .inl ⟨.arithmeticFault, by decide, rfl⟩

/-- A meaning that with legal fields answers `g r x` keeps the control state if every `g r x` does. -/
theorem faultsOrKeepsControl_of_next {P : Prop} {Q R : Reg → Reg → Prop} {w0 : Word} {s t : State}
    {g : Reg → Reg → State}
    (h : (P ∧ t = raiseFault .illegalInstruction s.pc w0 s) ∨ ∃ r x, Q r x ∧ R r x ∧ t = g r x)
    (hg : ∀ r x, (g r x).halted = s.halted ∧ (g r x).faultCause = s.faultCause ∧
      (g r x).faultAddr = s.faultAddr ∧ (g r x).faultWord = s.faultWord ∧ (g r x).hook = s.hook) :
    FaultsOrKeepsControl w0 s t := by
  rcases h with ⟨-, rfl⟩ | ⟨r, x, -, -, rfl⟩
  · exact faultsOrKeepsControl_illegal w0 s
  · exact .inr (hg r x)

/-- What an instruction can do to the control state: enter a fault or leave it alone; HALT sets `halted`, and SYSCALL
hands the advanced state to the trap. -/
theorem exec_control {i : Instr} {s t : State} (h : exec i s = .next t) :
    FaultsOrKeepsControl i.word0 s t ∨
      (i.mnemonic = .halt ∧ t = setHalted true (setPc (npc .halt s) s)) ∨
      (∃ id, i = .syscall id ∧ t = trapWith Config.handler id (setPc (npc .syscall s) s)) := by
  cases i with
  | halt gr xr =>
    rcases execHalt_next h with ⟨-, rfl⟩ | ⟨r, x, -, -, rfl⟩
    · exact .inl (faultsOrKeepsControl_illegal _ s)
    · exact .inr (.inl ⟨rfl, rfl⟩)
  | syscall id =>
    rcases execSyscall_next h with ⟨-, rfl⟩ | ⟨r, x, -, -, rfl⟩
    · exact .inl (faultsOrKeepsControl_illegal _ s)
    · exact .inr (.inr ⟨id, rfl, rfl⟩)
  | ld => exact .inl (faultsOrKeepsControl_of_next (execLd_next h) (by simp))
  | st => exact .inl (faultsOrKeepsControl_of_next (execSt_next h) (by simp))
  | lea => exact .inl (faultsOrKeepsControl_of_next (execLea_next h) (by simp))
  | push => exact .inl (faultsOrKeepsControl_of_next (execPush_next h) (by simp))
  | pop => exact .inl (faultsOrKeepsControl_of_next (execPop_next h) (by simp))
  | call => exact .inl (faultsOrKeepsControl_of_next (execCall_next h) (by simp))
  | ret => exact .inl (faultsOrKeepsControl_of_next (execRet_next h) (by simp))
  | cpa | cpl => exact .inl (faultsOrKeepsControl_of_next (compareOp_next h) (by simp))
  | jmp | jpz | jmi | jnz | jze => exact .inl (faultsOrKeepsControl_of_next (jumpOp_next h) (by simp))
  | add | sub | mul | and | or | eor => exact .inl (resultOp_control (f := AluResult.always _) h)
  | div | mod | sla | sra | sll | srl => exact .inl (resultOp_control h)

/-- An instruction that ends the run is HALT, takes a fault, or is SYSCALL with a handler registered (R13). -/
theorem exec_halts {i : Instr} {s t : State} (hs : s.halted = false) (h : exec i s = .next t)
    (ht : t.halted = true) :
    i.mnemonic = .halt ∨ (∃ c, c ≠ FaultCause.none ∧ FaultTaken s t c i.word0) ∨
      (i.mnemonic = .syscall ∧ s.hook ≠ none) := by
  rcases exec_control h with (⟨c, hc, rfl⟩ | ⟨hkeep, -⟩) | ⟨hm, -⟩ | ⟨id, rfl, rfl⟩
  · exact .inr (.inl ⟨c, hc, faultTaken_raiseFault c _ s⟩)
  · simp [hkeep, hs] at ht
  · exact .inl hm
  · refine .inr (.inr ⟨rfl, fun hnone => ?_⟩)
    rw [trapWith_none (by simpa using hnone)] at ht
    simp [hs] at ht

end Sys2Proof.Machine

namespace Sys2Proof

open Sys2Proof.Machine

/-! ## The statements -/

/-- Settles O1: `wrap16 n` reads as `n % 65536`, and the signed reading is split on bit 15. -/
theorem wordReadings : Obligations.WordReadings := by
  intro v
  refine ⟨u16_nonneg v, u16_lt v, s16_eq_ite v, fun n => ?_⟩
  rw [u16_wrap16]
  omega

/-- Settles O39: a step that is not the decoder's own fault is the decoded instruction's meaning, and `exec_halts`
says which of those end a run. -/
theorem onlyHaltFaultOrHandlerHalts : Obligations.OnlyHaltFaultOrHandlerHalts := by
  intro s t hs hstep ht
  rcases step_cases s with ⟨hhalted, -⟩ | ⟨-, i, hdecode, hexec⟩ | ⟨-, -, hfault⟩
  · simp [hs] at hhalted
  · have hword0 : i.word0 = memRead s.pc s := word0_of_decode hdecode
    rw [fetchWord0, fetchWord1, word1Address_eq] at hdecode
    rw [hexec] at hstep
    rcases exec_halts hs hstep ht with hhalt | ⟨c, hc, htaken⟩ | ⟨hsys, hhook⟩
    · exact .inl ⟨i, hdecode, hhalt⟩
    · exact .inr (.inl ⟨c, hc, hword0 ▸ htaken⟩)
    · exact .inr (.inr ⟨i, hdecode, hsys, hhook⟩)
  · rw [hfault] at hstep
    cases hstep
    exact .inr (.inl ⟨.illegalInstruction, by decide, faultTaken_raiseFault _ _ s⟩)

end Sys2Proof
end

section
/-! SUPPORT. The register fields and the address as numbers (R21, R104), what a canonical memory lists, what reset
leaves, which instructions write FR, and what FR steers; from these, the statements of spec/10_state.md. -/

namespace Sys2Proof.Machine

/-! ## Register fields and addresses (R21, R104) -/

/-- No field value above 4 names a register. -/
theorem Reg.ofField_eq_none_iff {f : Nibble} : Reg.ofField f = none ↔ 4 < f.toNat := by
  rw [Reg.ofField_eq_none, legalField, decide_eq_false_iff_not, not_le, Config.maxRegField]

/-- The number `k` of GRk as a field value (R21). -/
def Reg.field : Reg → Nibble
  | .gr0 => 0
  | .gr1 => 1
  | .gr2 => 2
  | .gr3 => 3
  | .gr4 => 4

/-- The field value `k` names GRk, and no other value names it. -/
theorem Reg.ofField_eq_some_iff {f : Nibble} {r : Reg} : Reg.ofField f = some r ↔ f = r.field := by
  cases r <;> revert f <;> decide

theorem Reg.field_eq_zero_iff {r : Reg} : r.field = 0 ↔ r = .gr0 := by
  cases r <;> decide

/-- The indexed address as a number. -/
theorem effectiveAddress_toNat {x : Reg} (h : x ≠ .gr0) (adr : Word) (s : State) :
    (effectiveAddress x adr s).toNat = (adr.toNat + (readReg x s).toNat) % 65536 := by
  rw [effectiveAddress_of_ne h, BitVec.toNat_add]

/-- Where a push stores as seen from an SP that is known. -/
theorem pushAddress_of_sp {s : State} {v : Word} (h : readReg .sp s = v) : pushAddress s = v - 1 := by
  rw [pushAddress_eq, h]

/-! ## What a canonical memory lists (R30, R44) -/

/-- The pairs of a canonical memory are its addresses with what they read, where that is not what an unlisted address
reads as. -/
theorem Memory.mem_iff_lookup {m : Memory} (h : m.wf) (k : Nat) (v : Word) :
    (k, v) ∈ m ↔ v ≠ Config.unlistedCell ∧ m.lookup k = v := by
  obtain ⟨hsorted, hcells⟩ := h
  induction m with
  | nil => simp [Memory.lookup, eq_comm]
  | cons c rest ih =>
    obtain ⟨k', v'⟩ := c
    obtain ⟨hfirst, hrest⟩ := List.pairwise_cons.mp hsorted
    have ih := ih hrest fun c hc => hcells c (List.mem_cons_of_mem _ hc)
    have hv' : v' ≠ Config.unlistedCell := (hcells _ (List.mem_cons_self ..)).2
    rw [List.mem_cons, Prod.mk.injEq, Memory.lookup]
    by_cases hk : k' = k
    · subst hk
      have hout : (k', v) ∉ rest := fun hc => lt_irrefl k' (hfirst (k', v) hc)
      simp only [hout, or_false, true_and, if_true]
      exact ⟨fun hv => ⟨hv ▸ hv', hv.symm⟩, fun hv => hv.2.symm⟩
    · simp [hk, Ne.symm hk, ih]

/-- An address above the top of memory is not listed in a canonical memory. -/
theorem Memory.lookup_of_ge {m : Memory} (h : m.wf) {k : Nat} (hk : Config.memWords ≤ k) :
    m.lookup k = Config.unlistedCell := by
  by_contra hne
  have hlisted := (Memory.mem_iff_lookup h k (m.lookup k)).mpr ⟨hne, rfl⟩
  exact absurd (h.2 _ hlisted).1 (not_lt.mpr hk)

/-- Two canonical memories that read the same at every word address do so at every number. -/
theorem Memory.lookup_eq_of_read_eq {m n : Memory} (hm : m.wf) (hn : n.wf) (h : ∀ a, m.read a = n.read a) (k : Nat) :
    m.lookup k = n.lookup k := by
  rcases lt_or_ge k Config.memWords with hk | hk
  · have hread := h (BitVec.ofNat 16 k)
    have hmod : k % 2 ^ 16 = k := Nat.mod_eq_of_lt hk
    rwa [Memory.read, Memory.read, BitVec.toNat_ofNat, hmod] at hread
  · rw [Memory.lookup_of_ge hm hk, Memory.lookup_of_ge hn hk]

/-! ## Reset (R41, R250, R251) -/

/-- What the reset port answers with when it does not refuse. -/
theorem resetPort_next {image : List Word} {startPc : Nat} {hook : Option Nat} {t : State}
    (h : resetPort image startPc hook = .next t) :
    image.length ≤ Config.memWords ∧ startPc < Config.memWords ∧
      t = resetState image (BitVec.ofNat 16 startPc) hook := by
  unfold resetPort at h
  split at h
  · cases h
  · split at h
    · cases h
    · cases h
      exact ⟨not_lt.mp ‹_›, not_le.mp ‹_›, rfl⟩

/-- Reset with an image that fits meets the invariant. -/
theorem resetState_inv {image : List Word} (h : image.length ≤ Config.memWords) (startPc : Word)
    (hook : Option Nat) : Inv (resetState image startPc hook) :=
  ⟨Memory.wf_ofImage image 0 (by simpa using h), fun hfault => absurd rfl hfault⟩

/-- `State.reset` is the reset with an empty image, start address 0 and no handler. -/
theorem reset_eq_resetState : State.reset = resetState [] Config.startPc none := rfl

@[simp] theorem readReg_sp_resetState (image : List Word) (startPc : Word) (hook : Option Nat) :
    readReg .sp (resetState image startPc hook) = 0xFC00 := rfl

/-! ## Stores of PUSH and CALL (R180, R182) -/

theorem onlyCell_memWrite {s t : State} {a v : Word} (h : t.mem = (memWrite a v s).mem) : OnlyCell s t a v := by
  refine ⟨?_, fun b hb => ?_⟩
  · simp [memRead, h]
  · simp [memRead, h, Memory.read_write_of_ne _ hb]

theorem exec_push_onlyCell {gr xr : Nibble} {r x : Reg} (hr : Reg.ofField gr = some r) (hx : Reg.ofField xr = some x)
    (adr : Word) (s : State) :
    ∃ u, exec (.push gr xr adr) s = .next u ∧
      OnlyCell s u (pushAddress s) (memRead (effectiveAddress x adr s) s) :=
  ⟨_, withFields_legal hr hx s _, onlyCell_memWrite (by simp)⟩

theorem exec_call_onlyCell {gr xr : Nibble} {r x : Reg} (hr : Reg.ofField gr = some r) (hx : Reg.ofField xr = some x)
    (adr : Word) (s : State) :
    ∃ u, exec (.call gr xr adr) s = .next u ∧ OnlyCell s u (pushAddress s) (s.pc + 2) :=
  ⟨_, withFields_legal hr hx s _, onlyCell_memWrite (by simp [npc_eq, Mnemonic.words, Mnemonic.format])⟩

/-! ## The handler (R28) -/

/-- No instruction changes the handler, a system call's own neither. -/
theorem exec_hook {i : Instr} {s t : State} (h : exec i s = .next t) : t.hook = s.hook := by
  rcases exec_control h with (⟨c, -, rfl⟩ | ⟨-, -, -, -, hhook⟩) | ⟨-, rfl⟩ | ⟨id, -, rfl⟩
  · exact raiseFault_hook ..
  · exact hhook
  · simp
  · obtain ⟨-, -, -, hhook⟩ := trapWith_frame Config.handler id (setPc (npc .syscall s) s)
    rw [hhook, setPc_hook]

/-! ## Who writes FR (R27) -/

/-- From `s` to `t` either a two-word instruction completed with FR equal to the register that `gr` names, or a fault
with Word 0 `w0` was taken. -/
def ResultOrFault (gr : Nibble) (w0 : Word) (s t : State) : Prop :=
  (SameControl s t ∧ t.pc = s.pc + 2 ∧ ∃ r, Reg.ofField gr = some r ∧ t.fr = readReg r t) ∨
    ∃ cause, cause ≠ FaultCause.none ∧ FaultTaken s t cause w0

theorem resultOrFault_raiseFault {c : FaultCause} (hc : c ≠ .none) (gr : Nibble) (w0 : Word) (s : State) :
    ResultOrFault gr w0 s (raiseFault c s.pc w0 s) :=
  .inr ⟨c, hc, faultTaken_raiseFault c w0 s⟩

/-- A result written to the named register and to FR, by an instruction of two words. -/
theorem resultOrFault_writeResult {m : Mnemonic} {gr : Nibble} {r : Reg} (hm : m.words = 2)
    (hr : Reg.ofField gr = some r) (w0 v : Word) (s : State) :
    ResultOrFault gr w0 s (setPc (npc m s) (writeResult r v s)) :=
  .inl ⟨by simp [SameControl, SameRecord], by simp [npc_eq, hm], r, hr, by simp [readReg_writeResult]⟩

theorem resultOp_resultOrFault {m : Mnemonic} {f : Word → Word → AluResult} {gr xr : Nibble} {adr : Word}
    {s t : State} (hm : m.words = 2) (h : resultOp m f gr xr adr s = .next t) :
    ResultOrFault gr (word0Of m.opc gr xr) s t := by
  rcases resultOp_next h with ⟨-, rfl⟩ | ⟨r, x, hr, -, ⟨v, -, rfl⟩ | ⟨-, rfl⟩⟩
  · exact resultOrFault_raiseFault (by decide) ..
  · exact resultOrFault_writeResult hm hr ..
  · exact resultOrFault_raiseFault (by decide) ..

theorem execLea_resultOrFault {gr xr : Nibble} {adr : Word} {s t : State} (h : execLea gr xr adr s = .next t) :
    ResultOrFault gr (word0Of Mnemonic.lea.opc gr xr) s t := by
  rcases execLea_next h with ⟨-, rfl⟩ | ⟨r, x, hr, -, rfl⟩
  · exact resultOrFault_raiseFault (by decide) ..
  · exact resultOrFault_writeResult rfl hr ..

/-- A result-producing instruction but a comparison gives its result to FR too, or faults. -/
theorem exec_resultOrFault {i : Instr} {s t : State} (h : exec i s = .next t) (hi : i.resultProducing = true)
    (hcpa : i.mnemonic ≠ .cpa) (hcpl : i.mnemonic ≠ .cpl) : ResultOrFault i.gr i.word0 s t := by
  cases i with
  | lea => exact execLea_resultOrFault h
  | add | sub | mul | and | or | eor => exact resultOp_resultOrFault (f := AluResult.always _) rfl h
  | div | mod | sla | sra | sll | srl => exact resultOp_resultOrFault rfl h
  | cpa => exact absurd rfl hcpa
  | cpl => exact absurd rfl hcpl
  | halt | ld | st | jmp | jpz | jmi | jnz | jze | push | pop | call | ret | syscall => cases hi

/-- A meaning that with legal fields answers `g r x` leaves FR alone if every `g r x` does. -/
theorem fr_of_next {P : Prop} {Q R : Reg → Reg → Prop} {w0 : Word} {s t : State} {g : Reg → Reg → State}
    (h : (P ∧ t = raiseFault .illegalInstruction s.pc w0 s) ∨ ∃ r x, Q r x ∧ R r x ∧ t = g r x)
    (hg : ∀ r x, (g r x).fr = s.fr) : t.fr = s.fr := by
  rcases h with ⟨-, rfl⟩ | ⟨r, x, -, -, rfl⟩
  · rfl
  · exact hg r x

/-- An instruction outside the fifteen leaves FR alone; for SYSCALL that is up to the handler. -/
theorem exec_fr {i : Instr} {s t : State} (h : exec i s = .next t) (hi : i.resultProducing = false)
    (hsys : i.mnemonic ≠ .syscall) : t.fr = s.fr := by
  cases i with
  | halt => exact fr_of_next (execHalt_next h) (by simp)
  | ld => exact fr_of_next (execLd_next h) (by simp)
  | st => exact fr_of_next (execSt_next h) (by simp)
  | push => exact fr_of_next (execPush_next h) (by simp)
  | pop => exact fr_of_next (execPop_next h) (by simp)
  | call => exact fr_of_next (execCall_next h) (by simp)
  | ret => exact fr_of_next (execRet_next h) (by simp)
  | jmp | jpz | jmi | jnz | jze => exact fr_of_next (jumpOp_next h) (by simp)
  | syscall => exact absurd rfl hsys
  | lea | add | sub | mul | div | mod | and | or | eor | sla | sra | sll | srl | cpa | cpl => cases hi

/-! ## What FR steers (R26, R175) -/

/-- The five jump conditions read of FR its sign and whether it is zero. -/
theorem JumpCond.taken_congr {f g : Word} (hsign : s16 f < 0 ↔ s16 g < 0) (hzero : f = 0 ↔ g = 0) (c : JumpCond) :
    c.taken f = c.taken g := by
  have hneg : frNegative f = frNegative g := decide_eq_decide.mpr hsign
  have hz : frZero f = frZero g := Bool.eq_iff_iff.mpr (by simpa [frZero] using hzero)
  cases c with
  | always => rfl
  | plusOrZero => exact decide_eq_decide.mpr (by rw [← not_lt, ← not_lt, hsign])
  | minus => exact hneg
  | nonZero => exact congrArg (!·) hz
  | zero => exact hz

/-- If both outcomes are next states, PC, the registers and memory are the same in both. -/
def AgreeButFlag (p q : StepResult) : Prop :=
  ∀ t t', p = .next t → q = .next t' → t'.pc = t.pc ∧ SameRegs t t' ∧ SameMemory t t'

theorem agreeButFlag_next {t t' : State} (hpc : t'.pc = t.pc) (hregs : SameRegs t t') (hmem : SameMemory t t') :
    AgreeButFlag (.next t) (.next t') := by
  rintro u u' ⟨⟩ ⟨⟩
  exact ⟨hpc, hregs, hmem⟩

/-- The field check reads no FR: what it goes on with decides. -/
theorem withFields_agreeButFlag {m : Mnemonic} {gr xr : Nibble} {s : State} {f : Word}
    {k k' : Reg → Reg → StepResult} (h : ∀ r x, AgreeButFlag (k r x) (k' r x)) :
    AgreeButFlag (withFields m gr xr s k) (withFields m gr xr (setFr f s) k') := by
  rcases withFields_cases m gr xr s k with ⟨r, x, hr, hx, he⟩ | ⟨hl, he⟩
  · rw [he, withFields_legal hr hx]
    exact h r x
  · rw [he, withFields_illegal hl]
    exact agreeButFlag_next rfl (by simp [SameRegs]) (by simp [SameMemory])

theorem resultOp_agreeButFlag {m : Mnemonic} {op : Word → Word → AluResult} {gr xr : Nibble} {adr f : Word}
    {s : State} : AgreeButFlag (resultOp m op gr xr adr s) (resultOp m op gr xr adr (setFr f s)) := by
  refine withFields_agreeButFlag fun r x => ?_
  simp only [readReg_setFr, memRead_setFr, effectiveAddress_setFr]
  cases op (readReg r s) (memRead (effectiveAddress x adr s) s) with
  | value v => exact agreeButFlag_next (by simp) (by simp [SameRegs, readReg_writeResult]) (by simp [SameMemory])
  | trap => exact agreeButFlag_next rfl (by simp [SameRegs]) (by simp [SameMemory])
  | stuck reason => rintro t t' ⟨⟩

theorem compareOp_agreeButFlag {m : Mnemonic} {op : Word → Word → Word} {gr xr : Nibble} {adr f : Word}
    {s : State} : AgreeButFlag (compareOp m op gr xr adr s) (compareOp m op gr xr adr (setFr f s)) :=
  withFields_agreeButFlag fun _ _ =>
    agreeButFlag_next (by simp) (by simp [SameRegs]) (by simp [SameMemory])

/-- A jump goes to the same address for two values of FR of which its condition says the same. -/
theorem jumpOp_agreeButFlag {m : Mnemonic} {c : JumpCond} {gr xr : Nibble} {adr f : Word} {s : State}
    (h : c.taken f = c.taken s.fr) :
    AgreeButFlag (jumpOp m c gr xr adr s) (jumpOp m c gr xr adr (setFr f s)) :=
  withFields_agreeButFlag fun _ _ =>
    agreeButFlag_next (by simp [h]) (by simp [SameRegs]) (by simp [SameMemory])

/-- No instruction but SYSCALL, whose handler sees FR (R192), takes more from FR than the jumps do. -/
theorem exec_agreeButFlag {i : Instr} {s : State} {f : Word} (hi : i.mnemonic ≠ .syscall)
    (hsign : s16 f < 0 ↔ s16 s.fr < 0) (hzero : f = 0 ↔ s.fr = 0) :
    AgreeButFlag (exec i s) (exec i (setFr f s)) := by
  cases i with
  | add | sub | mul | and | or | eor => exact resultOp_agreeButFlag (op := AluResult.always _)
  | div | mod | sla | sra | sll | srl => exact resultOp_agreeButFlag
  | cpa | cpl => exact compareOp_agreeButFlag
  | jmp | jpz | jmi | jnz | jze => exact jumpOp_agreeButFlag (JumpCond.taken_congr hsign hzero _)
  | syscall => exact absurd rfl hi
  | halt | ld | st | lea | push | pop | call | ret =>
    refine withFields_agreeButFlag fun r x => agreeButFlag_next ?_ ?_ ?_
    · simp [memRead_memWrite]
    · simp [SameRegs, readReg_writeReg, readReg_writeResult, poppedSp_eq]
    · simp [SameMemory, memRead_memWrite]

end Sys2Proof.Machine

namespace Sys2Proof

open Sys2Proof.Machine

/-! ## The statements -/

/-- Settles O8: the field value `k` alone names GRk, so the index register is GR0 exactly when `xr` is 0. -/
theorem effectiveAddressSum : Obligations.EffectiveAddressSum := by
  refine ⟨fun f => ⟨Reg.ofField_eq_some_iff, Reg.ofField_eq_some_iff, Reg.ofField_eq_some_iff,
      Reg.ofField_eq_some_iff, Reg.ofField_eq_some_iff, Reg.ofField_eq_none_iff⟩,
    fun s => ⟨rfl, rfl, rfl, rfl, rfl⟩, fun xr x adr s hx => ?_⟩
  have hgr0 : xr = 0 ↔ x = .gr0 := by rw [Reg.ofField_eq_some_iff.mp hx, Reg.field_eq_zero_iff]
  refine ⟨fun h0 => ?_, fun h0 => effectiveAddress_toNat (fun hx0 => h0 (hgr0.mpr hx0)) adr s⟩
  rw [hgr0.mp h0, effectiveAddress_gr0]

/-- Settles O22: FR takes no part in an address, a result or a store, and the jumps see its sign and zeroness alone. -/
theorem jumpsReadSignAndZeroOnly : Obligations.JumpsReadSignAndZeroOnly :=
  fun _ _ t t' _ hi hsign hzero h h' => exec_agreeButFlag hi hsign hzero t t' h h'

/-- Settles O40: the instructions outside the fifteen by their frame, the others by `ResultOrFault`. -/
theorem flagWrittenByFifteenOnly : Obligations.FlagWrittenByFifteenOnly :=
  fun _ _ _ h => ⟨exec_fr h, exec_resultOrFault h⟩

/-- Settles O45: a halted step and the decoder's own fault keep the handler, and so does every instruction. -/
theorem stepKeepsTheHandler : Obligations.StepKeepsTheHandler := by
  intro s t h
  rcases step_cases s with ⟨-, hstep⟩ | ⟨-, i, -, hstep⟩ | ⟨-, -, hstep⟩ <;> rw [hstep] at h
  · cases h; rfl
  · exact exec_hook h
  · cases h; rfl

/-- Settles O48: memories that read the same list the same pairs, and a strictly rising list is determined by its
members. -/
theorem canonicalMemoryIsUnique : Obligations.CanonicalMemoryIsUnique := by
  intro m n hm hn h
  refine List.Pairwise.eq_of_mem_iff hm.1 hn.1 fun ⟨k, v⟩ => ?_
  rw [Memory.mem_iff_lookup hm, Memory.mem_iff_lookup hn, Memory.lookup_eq_of_read_eq hm hn h]

/-- Settles O47: `State.reset` is one of the states `resetState` gives, and the port accepts only images that fit. -/
theorem resetMeetsInv : Obligations.ResetMeetsInv := by
  refine ⟨reset_eq_resetState ▸ resetState_inv (Nat.zero_le _) _ _, fun image startPc hook t h => ?_⟩
  obtain ⟨hfits, -, rfl⟩ := resetPort_next h
  exact resetState_inv hfits _ _

/-- Settles O50: every reset state has SP 0xFC00, so that a push stores at 0xFBFF. -/
theorem resetStackPointer : Obligations.ResetStackPointer := by
  intro t ht
  have hsp : readReg .sp t = 0xFC00 := by
    rcases ht with rfl | ⟨image, startPc, hook, h⟩
    · rfl
    · obtain ⟨-, -, rfl⟩ := resetPort_next h
      exact readReg_sp_resetState ..
  have hpush : pushAddress t = 0xFBFF := pushAddress_of_sp hsp
  refine ⟨hsp, fun gr xr adr r x hr hx => ?_⟩
  rw [← hpush]
  exact ⟨exec_push_onlyCell hr hx adr t, exec_call_onlyCell hr hx adr t⟩

end Sys2Proof
end

section
/-! SUPPORT. Which cell an instruction stores to (R54, R56) and what a fetch reads of it (R57, R60); from these, the
statements of spec/20_memory.md. -/

namespace Sys2Proof.Machine

/-! ## The one cell an instruction stores to (R54) -/

/-- Memory of `t` is that of `s`, or that of `s` after one write at the cell `c` names. -/
def StoresOnlyAt (c : Option Word) (s t : State) : Prop :=
  t.mem = s.mem ∨ ∃ a v, c = some a ∧ t.mem = s.mem.write a v

theorem StoresOnlyAt.memRead_eq {c : Option Word} {s t : State} (h : StoresOnlyAt c s t) {b : Word}
    (hb : c ≠ some b) : memRead b t = memRead b s := by
  rcases h with hmem | ⟨a, v, rfl, hmem⟩
  · simp [memRead, hmem]
  · have hne : b ≠ a := fun hba => hb (hba ▸ rfl)
    rw [memRead, hmem, Memory.read_write_of_ne _ hne, memRead]

/-- A meaning that with legal fields answers `g r x` stores at `c` only if every `g r x` does: the illegal-field fault
stores nothing. -/
theorem storesOnlyAt_of_next {P : Prop} {Q R : Reg → Reg → Prop} {w0 : Word} {s t : State} {g : Reg → Reg → State}
    {c : Option Word}
    (h : (P ∧ t = raiseFault .illegalInstruction s.pc w0 s) ∨ ∃ r x, Q r x ∧ R r x ∧ t = g r x)
    (hg : ∀ r x, R r x → StoresOnlyAt c s (g r x)) : StoresOnlyAt c s t := by
  rcases h with ⟨-, rfl⟩ | ⟨r, x, -, hx, rfl⟩
  · exact .inl rfl
  · exact hg r x hx

/-- A meaning that with legal fields answers `g r x` stores nowhere if no `g r x` differs in memory. -/
theorem storesNowhere_of_next {P : Prop} {Q R : Reg → Reg → Prop} {w0 : Word} {s t : State} {g : Reg → Reg → State}
    {c : Option Word}
    (h : (P ∧ t = raiseFault .illegalInstruction s.pc w0 s) ∨ ∃ r x, Q r x ∧ R r x ∧ t = g r x)
    (hg : ∀ r x, (g r x).mem = s.mem) : StoresOnlyAt c s t :=
  storesOnlyAt_of_next h fun r x _ => .inl (hg r x)

/-- A result goes to a register and to FR, and a fault keeps memory. -/
theorem resultOp_mem {m : Mnemonic} {f : Word → Word → AluResult} {gr xr : Nibble} {adr : Word} {s t : State}
    (h : resultOp m f gr xr adr s = .next t) : t.mem = s.mem := by
  rcases resultOp_next h with ⟨-, rfl⟩ | ⟨r, x, -, -, ⟨v, -, rfl⟩ | ⟨-, rfl⟩⟩ <;> simp

/-- An instruction but SYSCALL, whose handler may write anywhere (R192), stores to its one cell or to none. -/
theorem exec_storesOnlyAt {i : Instr} {s t : State} (h : exec i s = .next t) (hi : i.mnemonic ≠ .syscall) :
    StoresOnlyAt (i.storedCell s) s t := by
  cases i with
  | st gr xr adr =>
    refine storesOnlyAt_of_next (execSt_next h) fun r x hx => .inr ⟨effectiveAddress x adr s, readReg r s, ?_, rfl⟩
    exact congrArg (Option.map fun x => effectiveAddress x adr s) hx
  | push gr xr adr =>
    exact storesOnlyAt_of_next (execPush_next h) fun r x _ => .inr ⟨pushAddress s, _, rfl, rfl⟩
  | call gr xr adr =>
    exact storesOnlyAt_of_next (execCall_next h) fun r x _ => .inr ⟨pushAddress s, _, rfl, rfl⟩
  | halt => exact storesNowhere_of_next (execHalt_next h) (by simp)
  | ld => exact storesNowhere_of_next (execLd_next h) (by simp)
  | lea => exact storesNowhere_of_next (execLea_next h) (by simp)
  | pop => exact storesNowhere_of_next (execPop_next h) (by simp)
  | ret => exact storesNowhere_of_next (execRet_next h) (by simp)
  | cpa | cpl => exact storesNowhere_of_next (compareOp_next h) (by simp)
  | jmp | jpz | jmi | jnz | jze => exact storesNowhere_of_next (jumpOp_next h) (by simp)
  | add | sub | mul | and | or | eor => exact .inl (resultOp_mem (f := AluResult.always _) h)
  | div | mod | sla | sra | sll | srl => exact .inl (resultOp_mem h)
  | syscall => exact absurd rfl hi

/-! ## Fetch after a store (R57, R60) -/

@[simp] theorem fetchWord0_setPc (p : Word) (s : State) : fetchWord0 (setPc p s) = memRead p s := rfl

@[simp] theorem fetchWord1_setPc (p : Word) (s : State) : fetchWord1 (setPc p s) = memRead (p + 1) s := by
  simp [fetchWord1]

/-- The cell at the effective address holds the register after ST (R121). -/
theorem memRead_exec_st {gr xr : Nibble} {adr : Word} {r x : Reg} {s t : State} (hr : Reg.ofField gr = some r)
    (hx : Reg.ofField xr = some x) (h : exec (.st gr xr adr) s = .next t) :
    memRead (effectiveAddress x adr s) t = readReg r s := by
  have hexec : exec (.st gr xr adr) s =
      .next (setPc (npc .st s) (memWrite (effectiveAddress x adr s) (readReg r s) s)) :=
    withFields_legal hr hx s _
  cases hexec.symm.trans h
  simp

end Sys2Proof.Machine

namespace Sys2Proof

open Sys2Proof.Machine

/-! ## The statements -/

/-- Settles O42: memory after an instruction is memory before it with at most one write, at the stored cell. -/
theorem memoryFrame : Obligations.MemoryFrame :=
  fun _ _ _ _ h hi ha => (exec_storesOnlyAt h hi).memRead_eq ha

/-- Settles O49: either fetch reads the cell at the effective address, and nothing lies between the store and it. -/
theorem fetchSeesStores : Obligations.FetchSeesStores := by
  intro gr xr adr r x s t p hr hx h
  have hcell : memRead (effectiveAddress x adr s) t = readReg r s := memRead_exec_st hr hx h
  constructor
  · intro hp
    rw [fetchWord0_setPc, hp, hcell]
  · intro hp
    rw [fetchWord1_setPc, hp, hcell]

end Sys2Proof
end

section
/-! SUPPORT. An instruction and its words: what `encode` writes and `decode` reads back, which opcode bytes are defined,
the field check every meaning begins with (R102), and the instruction with its unused fields cleared (R79, R81); from
these, the statements of spec/30_encoding.md. -/

namespace Sys2Proof

/-! ## The words of an instruction (R71, R72, R77) -/

/-- An instruction is what its mnemonic and its fields stand for. -/
theorem instr_fields (i : Instr) : i.mnemonic.instr i.gr i.xr i.adr = i := by
  cases i with
  | syscall id => exact Laws.FieldsMakeInstr.syscall id
  | _ => rfl

/-- A one-word form has no Word 1, so any word may stand after it (R77). -/
theorem instr_adr_irrelevant {m : Mnemonic} (h : m.words ≠ 2) (gr xr : Nibble) (a b : Word) :
    m.instr gr xr a = m.instr gr xr b := by
  cases m with
  | halt | pop | ret | syscall => rfl
  | _ => exact absurd rfl h

/-- A two-word form keeps its Word 1 (R72). -/
theorem adr_instr {m : Mnemonic} (h : m.words = 2) (gr xr : Nibble) (adr : Word) : (m.instr gr xr adr).adr = adr := by
  cases m with
  | halt | pop | ret | syscall => cases h
  | _ => rfl

/-- Every format has one word or two (R77). -/
theorem words_eq_one_of_ne_two {m : Mnemonic} (h : m.words ≠ 2) : m.words = 1 := by
  cases m with
  | halt | pop | ret | syscall => rfl
  | _ => exact absurd rfl h

theorem encode_eq (i : Instr) : encode i = if i.mnemonic.words = 2 then [i.word0, i.adr] else [i.word0] := by
  unfold encode
  split
  · next h => rw [if_pos h]
  · next h => rw [if_neg h]

theorem head?_encode (i : Instr) : (encode i).head? = some i.word0 := by
  rw [encode_eq]
  split <;> rfl

/-- An encoding has as many words as the opcode has (R77). -/
theorem length_encode (i : Instr) : (encode i).length = i.mnemonic.words := by
  rw [encode_eq]
  split
  · next h => rw [h]; rfl
  · next h => rw [words_eq_one_of_ne_two h]; rfl

theorem wellFormed_iff {i : Instr} : i.WellFormed ↔ legalField i.gr = true ∧ legalField i.xr = true :=
  Bool.and_eq_true_iff

theorem wellFormed_eq_false_iff {i : Instr} : i.wellFormed = false ↔ 4 < i.gr.toNat ∨ 4 < i.xr.toNat := by
  rw [Instr.wellFormed, Bool.and_eq_false_iff, legalField_eq_false_iff, legalField_eq_false_iff]

/-- Whatever word follows Word 0 of a well-formed instruction, the decoder reads the mnemonic and both fields back. -/
theorem decode_word0 {i : Instr} (h : i.WellFormed) (w1 : Word) :
    decode i.word0 w1 = .ok (i.mnemonic.instr i.gr i.xr w1) := by
  obtain ⟨hg, hx⟩ := wellFormed_iff.mp h
  exact decode_word0Of hg hx w1

theorem decode_word0_adr {i : Instr} (h : i.WellFormed) : decode i.word0 i.adr = .ok i := by
  rw [decode_word0 h, instr_fields]

/-- The decoder undoes the encoder, with any word `w` after a one-word form. -/
theorem decode_encode {i : Instr} (h : i.WellFormed) (w : Word) : decode i.word0 ((encode i).getD 1 w) = .ok i := by
  by_cases hw : i.mnemonic.words = 2
  · rw [encode_eq, if_pos hw]
    exact decode_word0_adr h
  · rw [decode_word0 h, instr_adr_irrelevant hw _ _ _ i.adr, instr_fields]

/-- What the decoder accepts is well formed, and encodes to the words decoded. -/
theorem encode_of_decode {w0 w1 : Word} {i : Instr} (h : decode w0 w1 = .ok i) :
    i.WellFormed ∧ encode i = if i.mnemonic.words = 2 then [w0, w1] else [w0] := by
  have hword0 : i.word0 = w0 := Machine.word0_of_decode h
  obtain ⟨hg, hx, m, -, rfl⟩ := Machine.decode_ok h
  refine ⟨wellFormed_iff.mpr ⟨by rwa [gr_instr], by rwa [xr_instr]⟩, ?_⟩
  rw [encode_eq, hword0, mnemonic_instr]
  by_cases hw : m.words = 2
  · rw [if_pos hw, if_pos hw, adr_instr hw]
  · rw [if_neg hw, if_neg hw]

/-! ## The legal words (R76, R78) -/

/-- The defined opcode bytes (R76). -/
theorem exists_ofOpc_iff {op : Byte} :
    (∃ m, Mnemonic.ofOpc op = some m) ↔ op = 0x00 ∨ (0x10 ≤ op.toNat ∧ op.toNat ≤ 0x2A) := by
  constructor
  · rintro ⟨m, hm⟩
    rw [← opc_of_ofOpc hm]
    cases m <;> decide
  · have range : ∀ k < 27, (Mnemonic.ofOpc (BitVec.ofNat 8 (0x10 + k))).isSome = true := by decide
    rintro (rfl | ⟨hlow, hhigh⟩)
    · exact ⟨.halt, rfl⟩
    · have hop := range (op.toNat - 0x10) (by omega)
      rw [Nat.add_sub_cancel' hlow, BitVec.ofNat_toNat, BitVec.setWidth_eq] at hop
      exact Option.isSome_iff_exists.mp hop

/-- The decoder accepts a Word 0 with a defined opcode byte and two legal fields, and no other. -/
theorem exists_decode_iff {w0 w1 : Word} :
    (∃ i, decode w0 w1 = .ok i) ↔
      (∃ m, Mnemonic.ofOpc (opField w0) = some m) ∧
        legalField (grField w0) = true ∧ legalField (xrField w0) = true := by
  constructor
  · rintro ⟨i, h⟩
    obtain ⟨hg, hx, m, hm, -⟩ := Machine.decode_ok h
    exact ⟨⟨m, hm⟩, hg, hx⟩
  · rintro ⟨⟨m, hm⟩, hg, hx⟩
    have h := decode_word0Of (m := m) hg hx w1
    rw [opc_of_ofOpc hm, word0Of_fields] at h
    exact ⟨_, h⟩

/-! ## The fields a format uses (R73, R81) -/

/-- The `gr` that `clearUnused` leaves: the instruction's own where the format uses it, else 0. -/
def Instr.usedGr (i : Instr) : Nibble :=
  match i.mnemonic.format with
  | .RA | .R | .S => i.gr
  | .A | .N => 0

/-- The `xr` that `clearUnused` leaves: the instruction's own where the format uses it, else 0. -/
def Instr.usedXr (i : Instr) : Nibble :=
  match i.mnemonic.format with
  | .RA | .A | .S => i.xr
  | .R | .N => 0

theorem clearUnused_eq (i : Instr) : i.clearUnused = i.mnemonic.instr i.usedGr i.usedXr i.adr := by
  unfold Instr.clearUnused Instr.usedGr Instr.usedXr
  cases i.mnemonic.format with
  | RA | S => exact (instr_fields i).symm
  | A | R | N => rfl

@[simp] theorem mnemonic_clearUnused (i : Instr) : i.clearUnused.mnemonic = i.mnemonic := by
  rw [clearUnused_eq, mnemonic_instr]

@[simp] theorem gr_clearUnused (i : Instr) : i.clearUnused.gr = i.usedGr := by
  rw [clearUnused_eq, gr_instr]

@[simp] theorem xr_clearUnused (i : Instr) : i.clearUnused.xr = i.usedXr := by
  rw [clearUnused_eq, xr_instr]

@[simp] theorem adr_clearUnused (i : Instr) : i.clearUnused.adr = i.adr := by
  cases i <;> rfl

theorem legalField_zero : legalField 0 = true := rfl

theorem legalField_usedGr {i : Instr} (h : legalField i.gr = true) : legalField i.usedGr = true := by
  unfold Instr.usedGr
  cases i.mnemonic.format with
  | RA | R | S => exact h
  | A | N => exact legalField_zero

theorem legalField_usedXr {i : Instr} (h : legalField i.xr = true) : legalField i.usedXr = true := by
  unfold Instr.usedXr
  cases i.mnemonic.format with
  | RA | A | S => exact h
  | R | N => exact legalField_zero

theorem clearUnused_wellFormed {i : Instr} (h : i.WellFormed) : i.clearUnused.WellFormed := by
  obtain ⟨hg, hx⟩ := wellFormed_iff.mp h
  rw [wellFormed_iff, gr_clearUnused, xr_clearUnused]
  exact ⟨legalField_usedGr hg, legalField_usedXr hx⟩

/-- `w0 = OPC * 256 + gr * 16 + xr` with the fields a format does not use at 0 (R81). -/
theorem toNat_word0_clearUnused (i : Instr) :
    i.clearUnused.word0.toNat = i.mnemonic.opc.toNat * 256 + i.usedGr.toNat * 16 + i.usedXr.toNat := by
  rw [Instr.word0, toNat_word0Of, mnemonic_clearUnused, gr_clearUnused, xr_clearUnused]

end Sys2Proof

namespace Sys2Proof.Machine

/-! ## The field check (R74, R102) -/

/-- Every meaning begins with the check of both fields, used or not. -/
theorem exec_eq_withFields (i : Instr) (s : State) : ∃ k, exec i s = withFields i.mnemonic i.gr i.xr s k := by
  cases i <;> exact ⟨_, rfl⟩

/-- An ill-formed instruction raises IllegalInstruction with the Word 0 of its fields. -/
theorem exec_illegal {i : Instr} (h : i.wellFormed = false) (s : State) :
    exec i s = .next (raiseFault .illegalInstruction s.pc i.word0 s) := by
  obtain ⟨k, hk⟩ := exec_eq_withFields i s
  rw [hk]
  exact withFields_illegal h s k

/-- A meaning that does not use the register `gr` names is the same for every legal `gr`. -/
theorem withFields_gr_irrelevant {gr gr' : Nibble} (hg : legalField gr = true) (hg' : legalField gr' = true)
    (m : Mnemonic) {xr : Nibble} (hx : legalField xr = true) (s : State) (k : Reg → StepResult) :
    withFields m gr xr s (fun _ x => k x) = withFields m gr' xr s (fun _ x => k x) := by
  obtain ⟨r, hr⟩ := ofField_of_legalField hg
  obtain ⟨r', hr'⟩ := ofField_of_legalField hg'
  obtain ⟨x, hx⟩ := ofField_of_legalField hx
  rw [withFields_legal hr hx, withFields_legal hr' hx]

/-- A meaning that does not use the register `xr` names is the same for every legal `xr`. -/
theorem withFields_xr_irrelevant {xr xr' : Nibble} (hx : legalField xr = true) (hx' : legalField xr' = true)
    (m : Mnemonic) {gr : Nibble} (hg : legalField gr = true) (s : State) (k : Reg → StepResult) :
    withFields m gr xr s (fun r _ => k r) = withFields m gr xr' s (fun r _ => k r) := by
  obtain ⟨r, hr⟩ := ofField_of_legalField hg
  obtain ⟨x, hx⟩ := ofField_of_legalField hx
  obtain ⟨x', hx'⟩ := ofField_of_legalField hx'
  rw [withFields_legal hr hx, withFields_legal hr hx']

/-- Clearing the fields a format ignores changes nothing: format A does not use the register `gr` names, format R not
the one `xr` names, format N neither, and RA and S ignore no field. -/
theorem exec_clearUnused {i : Instr} (h : i.WellFormed) (s : State) : exec i.clearUnused s = exec i s := by
  obtain ⟨hg, hx⟩ := wellFormed_iff.mp h
  cases i with
  | jmp | jpz | jmi | jnz | jze | push | call => exact withFields_gr_irrelevant legalField_zero hg _ hx s _
  | pop => exact withFields_xr_irrelevant legalField_zero hx _ hg s _
  | halt | ret =>
    exact (withFields_gr_irrelevant legalField_zero hg _ legalField_zero s _).trans
      (withFields_xr_irrelevant legalField_zero hx _ hg s _)
  | _ => rfl

end Sys2Proof.Machine

namespace Sys2Proof

open Sys2Proof.Machine

/-! ## The statements -/

/-- Settles O4: the first word of an encoding is `Instr.word0`, and `decode_encode` reads it back. -/
theorem decodeOfEncode : Obligations.DecodeOfEncode :=
  fun i w h => ⟨i.word0, head?_encode i, decode_encode h w, length_encode i⟩

/-- Settles O5: Word 0 is its three fields and nothing else, and a two-word form keeps Word 1. -/
theorem encodeOfDecode : Obligations.EncodeOfDecode :=
  fun _ _ _ h => encode_of_decode h

/-- Settles O6: the decoder's two checks, each in numbers. -/
theorem legalWordsExactly : Obligations.LegalWordsExactly := by
  intro w0 w1
  rw [exists_decode_iff, exists_ofOpc_iff, legalField_iff, legalField_iff]

/-- Settles O43: a cleared field is legal, and a meaning does not use the register an ignored field names. -/
theorem ignoredFieldsDoNotMatter : Obligations.IgnoredFieldsDoNotMatter :=
  fun _ s h => ⟨clearUnused_wellFormed h, exec_clearUnused h s⟩

/-- Settles O2: the fields as quotients and remainders of the word, and the source's word by the fields it is made
of. -/
theorem word0HasThreeFields : Obligations.Word0HasThreeFields := by
  refine ⟨fun w => ⟨?_, toNat_grField w, toNat_xrField w, toNat_idField w, word0Of_fields w⟩, rfl, rfl, rfl, ?_⟩
  · have := w.isLt
    rw [toNat_opField]
    omega
  · exact decode_word0_adr (i := .ld 1 0 0x0005) rfl

/-- Settles O7: assembling is encoding with the unused fields cleared, and `usedGr` and `usedXr` are the fields the
statement writes out by format. -/
theorem assembledWords : Obligations.AssembledWords := by
  intro i h
  refine ⟨?_, ?_, ?_⟩
  · rw [assemble, encode_eq, mnemonic_clearUnused, adr_clearUnused]
  · rw [toNat_word0_clearUnused, Instr.usedGr, Instr.usedXr]
    cases i.mnemonic.format <;> rfl
  · have hdecode := decode_word0_adr (clearUnused_wellFormed h)
    rwa [adr_clearUnused] at hdecode

/-- Settles O32: the field check comes before anything an instruction does, and fault entry is precise. -/
theorem illegalFieldFaultsInExec : Obligations.IllegalFieldFaultsInExec :=
  fun _ s h => ⟨_, exec_illegal (wellFormed_eq_false_iff.mpr h) s, faultTaken_raiseFault _ _ s⟩

end Sys2Proof
end

section
/-! SUPPORT. What one step does by what its words decode to (R101 to R107), how the fuel of a run adds up (R111), and
which registers an instruction leaves alone (R109); from these, the statements of spec/40_step_cycle.md. -/

namespace Sys2Proof.Machine

/-! ## The step by its decoding (R101, R102, R107) -/

/-- A field above 4 is refused before the opcode is looked at (R102). -/
theorem decode_illegalField {w0 : Word} (h : 4 < (grField w0).toNat ∨ 4 < (xrField w0).toNat) (w1 : Word) :
    decode w0 w1 = .error (.malformedField (grField w0) (xrField w0)) := by
  have hlegal : (legalField (grField w0) && legalField (xrField w0)) = false := by
    rwa [Bool.and_eq_false_iff, legalField_eq_false_iff, legalField_eq_false_iff]
  simp [decode, hlegal]

theorem step_of_decode_ok {s : State} {i : Instr} (hs : s.halted = false)
    (h : decode (memRead s.pc s) (memRead (s.pc + 1) s) = .ok i) : step s = exec i s := by
  simp only [step, hs, fetchWord0, fetchWord1, word1Address_eq, h, Bool.false_eq_true, ↓reduceIte]

theorem step_of_decode_error {s : State} {e : DecodeError} (hs : s.halted = false)
    (h : decode (memRead s.pc s) (memRead (s.pc + 1) s) = .error e) :
    step s = .next (raiseFault .illegalInstruction s.pc (memRead s.pc s) s) := by
  simp only [step, hs, fetchWord0, fetchWord1, word1Address_eq, h, Bool.false_eq_true, ↓reduceIte]

/-! ## The fuel of a run (R111) -/

/-- A halted state is the end of every run from it (R100). -/
theorem runFor_of_halted {s : State} (h : s.halted = true) (n : Nat) : runFor n s = .next s := by
  cases n with
  | zero => rfl
  | succ n => exact if_pos h

/-- A run from a state that is not halted takes a step and goes on from there. -/
theorem runFor_succ_of_step {s u : State} (hs : s.halted = false) (hstep : step s = .next u) (n : Nat) :
    runFor (n + 1) s = runFor n u := by
  simp [runFor, hs, hstep]

/-- What a run with fuel can have done first: nothing if halted, else a step that answers a next state. -/
theorem runFor_succ_next {n : Nat} {s t : State} (h : runFor (n + 1) s = .next t) :
    (s.halted = true ∧ t = s) ∨ (s.halted = false ∧ ∃ u, step s = .next u ∧ runFor n u = .next t) := by
  cases hs : s.halted with
  | true =>
    rw [runFor_of_halted hs] at h
    cases h
    exact .inl ⟨rfl, rfl⟩
  | false =>
    cases hstep : step s with
    | next u => exact .inr ⟨rfl, u, rfl, by rwa [runFor_succ_of_step hs hstep] at h⟩
    | fault r => simp [runFor, hs, hstep] at h
    | refused r => simp [runFor, hs, hstep] at h

/-- More fuel goes on from where the run with less fuel stands. -/
theorem runFor_add {n : Nat} {s t : State} (h : runFor n s = .next t) (k : Nat) :
    runFor (n + k) s = runFor k t := by
  induction n generalizing s with
  | zero =>
    cases h
    rw [Nat.zero_add]
  | succ n ih =>
    rcases runFor_succ_next h with ⟨hs, rfl⟩ | ⟨hs, u, hstep, hrest⟩
    · rw [runFor_of_halted hs, runFor_of_halted hs]
    · rw [Nat.add_right_comm, runFor_succ_of_step hs hstep, ih hrest]

/-! ## The registers an instruction leaves alone (R109) -/

/-- A register that is not the destination is another register than the one `gr` names. -/
theorem ne_of_not_destination {gr : Nibble} {q r : Reg} (hq : (Reg.ofField gr == some q) = false)
    (hr : Reg.ofField gr = some r) : q ≠ r := by
  rintro rfl
  exact ne_of_beq_false hq hr

/-- A meaning that with legal fields answers `g r x` leaves register `q` alone if every `g r x` does: the illegal-field
fault writes no register. -/
theorem readReg_of_next {P : Prop} {Q R : Reg → Reg → Prop} {w0 : Word} {s t : State} {g : Reg → Reg → State} {q : Reg}
    (h : (P ∧ t = raiseFault .illegalInstruction s.pc w0 s) ∨ ∃ r x, Q r x ∧ R r x ∧ t = g r x)
    (hg : ∀ r x, Q r x → readReg q (g r x) = readReg q s) : readReg q t = readReg q s := by
  rcases h with ⟨-, rfl⟩ | ⟨r, x, hr, -, rfl⟩
  · exact readReg_raiseFault ..
  · exact hg r x hr

/-- A result goes to the register `gr` names, and both faults write none. -/
theorem resultOp_readReg {m : Mnemonic} {f : Word → Word → AluResult} {gr xr : Nibble} {adr : Word} {s t : State}
    {q : Reg} (h : resultOp m f gr xr adr s = .next t) (hq : (Reg.ofField gr == some q) = false) :
    readReg q t = readReg q s := by
  rcases resultOp_next h with ⟨-, rfl⟩ | ⟨r, x, hr, -, ⟨v, -, rfl⟩ | ⟨-, rfl⟩⟩
  · exact readReg_raiseFault ..
  · simp [readReg_writeResult, ne_of_not_destination hq hr]
  · exact readReg_raiseFault ..

/-- An instruction writes no register but its destination and, if it uses the stack, SP; for SYSCALL that is up to the
handler. -/
theorem exec_readReg {i : Instr} {s t : State} {q : Reg} (h : exec i s = .next t) (hq : i.mayWriteReg q = false) :
    readReg q t = readReg q s := by
  cases i with
  | ld =>
    exact readReg_of_next (execLd_next h) fun r x hr => by
      simp [readReg_writeReg, ne_of_not_destination hq hr]
  | lea =>
    exact readReg_of_next (execLea_next h) fun r x hr => by
      simp [readReg_writeResult, ne_of_not_destination hq hr]
  | pop =>
    obtain ⟨hdest, hsp⟩ := Bool.or_eq_false_iff.mp hq
    exact readReg_of_next (execPop_next h) fun r x hr => by
      simp [readReg_writeReg, ne_of_not_destination hdest hr, ne_of_beq_false hsp]
  | push => exact readReg_of_next (execPush_next h) (by simp [readReg_writeReg, ne_of_beq_false hq])
  | call => exact readReg_of_next (execCall_next h) (by simp [readReg_writeReg, ne_of_beq_false hq])
  | ret => exact readReg_of_next (execRet_next h) (by simp [readReg_writeReg, ne_of_beq_false hq])
  | halt => exact readReg_of_next (execHalt_next h) (by simp)
  | st => exact readReg_of_next (execSt_next h) (by simp)
  | cpa | cpl => exact readReg_of_next (compareOp_next h) (by simp)
  | jmp | jpz | jmi | jnz | jze => exact readReg_of_next (jumpOp_next h) (by simp)
  | add | sub | mul | and | or | eor => exact resultOp_readReg (f := AluResult.always _) h hq
  | div | mod | sla | sra | sll | srl => exact resultOp_readReg h hq
  | syscall => cases hq

end Sys2Proof.Machine

namespace Sys2Proof

open Sys2Proof.Machine

/-! ## The statements -/

/-- Settles O41: a completing instruction writes its destination and SP alone, and no fault writes a register. -/
theorem registerFrame : Obligations.RegisterFrame :=
  fun _ _ _ _ h hq => exec_readReg h hq

/-- Settles O53: the fuel that is left over runs from the end, where a run does nothing. -/
theorem runStopsWhenHalted : Obligations.RunStopsWhenHalted := by
  intro n k s t h ht
  rw [runFor_add h, runFor_of_halted ht]

/-- Settles O33: the decoder refuses the word by its fields alone, and fault entry is precise. -/
theorem illegalFieldFaults : Obligations.IllegalFieldFaults :=
  fun _ hs h => ⟨_, step_of_decode_error hs (decode_illegalField h _), faultTaken_raiseFault _ _ _⟩

/-- Settles O35: what the decoder accepts is well formed, and the step runs it on the state as fetched. -/
theorem stepRunsTheDecodedInstruction : Obligations.StepRunsTheDecodedInstruction :=
  fun _ _ hs h => ⟨(encode_of_decode h).1, step_of_decode_ok hs h⟩

end Sys2Proof
end

section
/-! SUPPORT. What LD, ST and LEA leave when their fields are legal (R120 to R122), from one lemma per kind of write:
the register a load or a result goes to, and the program counter of a two-word instruction (R105). From these, the
statements of spec/41_load_store.md. -/

namespace Sys2Proof.Machine

/-! ## The program counter of a two-word instruction (R105) -/

theorem npc_of_two_words {m : Mnemonic} (h : m.words = 2) (s : State) : npc m s = s.pc + 2 := by
  rw [npc_eq, h]
  rfl

/-! ## One register written (R20, R27) -/

theorem onlyReg_writeReg (r : Reg) (v p : Word) (s : State) : OnlyReg s (setPc p (writeReg r v s)) r v := by
  refine ⟨?_, fun q hq => ?_⟩
  · rw [readReg_setPc, readReg_writeReg_same]
  · rw [readReg_setPc, readReg_writeReg_of_ne hq]

theorem onlyReg_writeResult (r : Reg) (v p : Word) (s : State) : OnlyReg s (setPc p (writeResult r v s)) r v := by
  refine ⟨?_, fun q hq => ?_⟩
  · rw [readReg_setPc, readReg_writeResult, if_pos rfl]
  · rw [readReg_setPc, readReg_writeResult, if_neg hq]

/-- A two-word instruction that writes `v` as its result (R27) and goes on to the next instruction does no more. -/
theorem givesResult_of_exec {i : Instr} {s : State} {r : Reg} {v : Word} (hm : i.mnemonic.words = 2)
    (h : exec i s = .next (setPc (npc i.mnemonic s) (writeResult r v s))) : GivesResult i s r v := by
  refine ⟨_, h, onlyReg_writeResult .., ?fr, ?pc, ?mem, ?control⟩
  case fr => simp
  case pc => exact npc_of_two_words hm s
  case mem => exact fun a => by simp
  case control => simp [SameControl, SameRecord]

/-! ## LD, ST and LEA with legal fields (R120, R121, R122) -/

section
variable {gr xr : Nibble} {r x : Reg}

theorem exec_ld_of_legal (hr : Reg.ofField gr = some r) (hx : Reg.ofField xr = some x) (adr : Word) (s : State) :
    exec (.ld gr xr adr) s = .next (setPc (npc .ld s) (writeReg r (memRead (effectiveAddress x adr s) s) s)) :=
  withFields_legal hr hx s _

theorem exec_st_of_legal (hr : Reg.ofField gr = some r) (hx : Reg.ofField xr = some x) (adr : Word) (s : State) :
    exec (.st gr xr adr) s = .next (setPc (npc .st s) (memWrite (effectiveAddress x adr s) (readReg r s) s)) :=
  withFields_legal hr hx s _

theorem exec_lea_of_legal (hr : Reg.ofField gr = some r) (hx : Reg.ofField xr = some x) (adr : Word) (s : State) :
    exec (.lea gr xr adr) s = .next (setPc (npc .lea s) (writeResult r (effectiveAddress x adr s) s)) :=
  withFields_legal hr hx s _

end

end Sys2Proof.Machine

namespace Sys2Proof

open Sys2Proof.Machine

/-! ## The statements -/

/-- Settles O9: the next state is a register write and the advanced PC, and neither reaches FR, memory or the control
state. -/
theorem ldLoadsTheCell : Obligations.LdLoadsTheCell := by
  intro gr xr adr r x s hr hx
  refine ⟨rfl, _, exec_ld_of_legal hr hx adr s, onlyReg_writeReg .., ?pc, ?fr, ?mem, ?control⟩
  case pc => exact npc_of_two_words rfl s
  case fr => simp
  case mem => exact fun a => by simp
  case control => simp [SameControl, SameRecord]

/-- Settles O10: the next state is one cell write and the advanced PC, and neither reaches a register, FR or the control
state. -/
theorem stStoresTheRegister : Obligations.StStoresTheRegister := by
  intro gr xr adr r x s hr hx
  refine ⟨rfl, _, exec_st_of_legal hr hx adr s, onlyCell_memWrite rfl, ?regs, ?pc, ?fr, ?control⟩
  case regs => exact fun q => by simp
  case pc => exact npc_of_two_words rfl s
  case fr => simp
  case control => simp [SameControl, SameRecord]

/-- Settles O11: LEA's result is the address itself, written as every result is (R27). -/
theorem leaGivesTheAddress : Obligations.LeaGivesTheAddress :=
  fun _ _ adr _ _ s hr hx => ⟨rfl, givesResult_of_exec rfl (exec_lea_of_legal hr hx adr s)⟩

end Sys2Proof
end

section
/-! SUPPORT. A result-producing instruction whose operands give a word (R27, R136), with its frame, said once for every
such instruction; then what ADD, SUB and MUL make of their operands. From these, the statement of
spec/42_arithmetic.md. -/

namespace Sys2Proof.Machine

/-! ## Result-producing instructions whose operands give a word (R27) -/

/-- A two-word instruction of the result-producing shape writes its result, with legal fields and operands that give
one. -/
theorem givesResult_of_resultOp {i : Instr} {f : Word → Word → AluResult} {gr xr : Nibble} {adr v : Word} {r x : Reg}
    {s : State} (hm : i.mnemonic.words = 2) (hexec : exec i s = resultOp i.mnemonic f gr xr adr s)
    (hr : Reg.ofField gr = some r) (hx : Reg.ofField xr = some x)
    (hf : f (readReg r s) (memRead (effectiveAddress x adr s) s) = .value v) : GivesResult i s r v :=
  givesResult_of_exec hm (hexec.trans (resultOp_value hr hx hf))

/-! ## ADD, SUB and MUL (R130, R131, R132) -/

theorem exec_add_eq_resultOp (gr xr : Nibble) (adr : Word) (s : State) :
    exec (.add gr xr adr) s = resultOp .add (AluResult.always addWords) gr xr adr s := rfl

theorem exec_sub_eq_resultOp (gr xr : Nibble) (adr : Word) (s : State) :
    exec (.sub gr xr adr) s = resultOp .sub (AluResult.always subWords) gr xr adr s := rfl

theorem exec_mul_eq_resultOp (gr xr : Nibble) (adr : Word) (s : State) :
    exec (.mul gr xr adr) s = resultOp .mul (AluResult.always mulWords) gr xr adr s := rfl

theorem always_addWords (a b : Word) : AluResult.always addWords a b = .value (BitVec.ofInt 16 (a.toInt + b.toInt)) :=
  rfl

theorem always_subWords (a b : Word) : AluResult.always subWords a b = .value (BitVec.ofInt 16 (a.toInt - b.toInt)) :=
  rfl

theorem always_mulWords (a b : Word) : AluResult.always mulWords a b = .value (BitVec.ofInt 16 (a.toInt * b.toInt)) :=
  rfl

end Sys2Proof.Machine

namespace Sys2Proof

open Sys2Proof.Machine

/-! ## The statement -/

/-- Settles O12: the three differ in their opcode and in the integer operation; what is written, and that nothing else
is, is one lemma for all result-producing instructions. -/
theorem addSubMulWrap : Obligations.AddSubMulWrap := by
  intro gr xr adr r x s hr hx a b
  refine ⟨⟨rfl, ?add⟩, ⟨rfl, ?sub⟩, ⟨rfl, ?mul⟩⟩
  case add => exact givesResult_of_resultOp rfl (exec_add_eq_resultOp ..) hr hx (always_addWords ..)
  case sub => exact givesResult_of_resultOp rfl (exec_sub_eq_resultOp ..) hr hx (always_subWords ..)
  case mul => exact givesResult_of_resultOp rfl (exec_mul_eq_resultOp ..) hr hx (always_mulWords ..)

end Sys2Proof
end

section
/-! SUPPORT. A result-producing instruction whose operation gives a word for every pair of operands (R27), and what
AND, OR and EOR make of each bit of theirs. From these, the statement of spec/43_logic.md. -/

namespace Sys2Proof.Machine

/-! ## Operations that give a word for all operands (R27) -/

/-- A two-word instruction of the result-producing shape gives what its operation makes of the register and the cell,
if that operation has no operands to fault on. -/
theorem givesResult_of_resultOp_always {i : Instr} {op : Word → Word → Word} {gr xr : Nibble} {adr : Word} {r x : Reg}
    {s : State} (hm : i.mnemonic.words = 2)
    (hexec : exec i s = resultOp i.mnemonic (AluResult.always op) gr xr adr s)
    (hr : Reg.ofField gr = some r) (hx : Reg.ofField xr = some x) :
    GivesResult i s r (op (readReg r s) (memRead (effectiveAddress x adr s) s)) :=
  givesResult_of_resultOp hm hexec hr hx rfl

/-! ## AND, OR and EOR (R140, R141, R142) -/

theorem exec_and_eq_resultOp (gr xr : Nibble) (adr : Word) (s : State) :
    exec (.and gr xr adr) s = resultOp .and (AluResult.always andWords) gr xr adr s := rfl

theorem exec_or_eq_resultOp (gr xr : Nibble) (adr : Word) (s : State) :
    exec (.or gr xr adr) s = resultOp .or (AluResult.always orWords) gr xr adr s := rfl

theorem exec_eor_eq_resultOp (gr xr : Nibble) (adr : Word) (s : State) :
    exec (.eor gr xr adr) s = resultOp .eor (AluResult.always eorWords) gr xr adr s := rfl

@[simp] theorem getLsbD_andWords (a b : Word) (k : Nat) :
    (andWords a b).getLsbD k = (a.getLsbD k && b.getLsbD k) := BitVec.getLsbD_and

@[simp] theorem getLsbD_orWords (a b : Word) (k : Nat) :
    (orWords a b).getLsbD k = (a.getLsbD k || b.getLsbD k) := BitVec.getLsbD_or

@[simp] theorem getLsbD_eorWords (a b : Word) (k : Nat) :
    (eorWords a b).getLsbD k = (a.getLsbD k ^^ b.getLsbD k) := BitVec.getLsbD_xor

end Sys2Proof.Machine

namespace Sys2Proof

open Sys2Proof.Machine

/-! ## The statement -/

/-- Settles O16: the word is the model's own operation on the register and the cell; its bits and its effect on the
state are separate lemmas. -/
theorem logicBitByBit : Obligations.LogicBitByBit := by
  intro gr xr adr r x s hr hx a b
  refine ⟨⟨rfl, andWords a b, getLsbD_andWords a b, ?and⟩, ⟨rfl, orWords a b, getLsbD_orWords a b, ?or⟩,
    ⟨rfl, eorWords a b, getLsbD_eorWords a b, ?eor⟩⟩
  case and => exact givesResult_of_resultOp_always rfl (exec_and_eq_resultOp ..) hr hx
  case or => exact givesResult_of_resultOp_always rfl (exec_or_eq_resultOp ..) hr hx
  case eor => exact givesResult_of_resultOp_always rfl (exec_eor_eq_resultOp ..) hr hx

end Sys2Proof
end

section
/-! SUPPORT. A comparison with legal fields (R160, R161), with its frame, said once for both; then the two differences as
wrapped integers. From these, the statement of spec/45_compare.md. -/

namespace Sys2Proof.Machine

/-! ## Comparisons with legal fields -/

/-- With legal fields a comparison writes FR and goes on to the next instruction. -/
theorem compareOp_legal {m : Mnemonic} {gr xr : Nibble} {r x : Reg} (hr : Reg.ofField gr = some r)
    (hx : Reg.ofField xr = some x) (f : Word → Word → Word) (adr : Word) (s : State) :
    compareOp m f gr xr adr s =
      .next (setPc (npc m s) (setFr (f (readReg r s) (memRead (effectiveAddress x adr s) s)) s)) :=
  withFields_legal hr hx s _

/-- A two-word instruction of the comparison shape gives FR what its operation makes of the register and the cell, and
does no more. -/
theorem givesFlag_of_compareOp {i : Instr} {f : Word → Word → Word} {gr xr : Nibble} {adr : Word} {r x : Reg}
    {s : State} (hm : i.mnemonic.words = 2) (hexec : exec i s = compareOp i.mnemonic f gr xr adr s)
    (hr : Reg.ofField gr = some r) (hx : Reg.ofField xr = some x) :
    GivesFlag i s (f (readReg r s) (memRead (effectiveAddress x adr s) s)) := by
  refine ⟨_, hexec.trans (compareOp_legal hr hx f adr s), ?regs, ?fr, ?pc, ?mem, ?control⟩
  case regs => exact fun q => by simp
  case fr => simp
  case pc => exact npc_of_two_words hm s
  case mem => exact fun a => by simp
  case control => simp [SameControl, SameRecord]

/-! ## CPA and CPL (R160, R161) -/

theorem exec_cpa_eq_compareOp (gr xr : Nibble) (adr : Word) (s : State) :
    exec (.cpa gr xr adr) s = compareOp .cpa subWords gr xr adr s := rfl

theorem exec_cpl_eq_compareOp (gr xr : Nibble) (adr : Word) (s : State) :
    exec (.cpl gr xr adr) s = compareOp .cpl subWordsUnsigned gr xr adr s := rfl

theorem subWords_eq_ofInt (a b : Word) : subWords a b = BitVec.ofInt 16 (a.toInt - b.toInt) := rfl

theorem subWordsUnsigned_eq_ofInt (a b : Word) :
    subWordsUnsigned a b = BitVec.ofInt 16 ((a.toNat : Int) - (b.toNat : Int)) := rfl

end Sys2Proof.Machine

namespace Sys2Proof

open Sys2Proof.Machine

/-! ## The statement -/

/-- Settles O19: the two differ in their opcode and in the reading whose difference they wrap; that FR takes it and
nothing else changes is one lemma for both. -/
theorem comparisonsSetFlagOnly : Obligations.ComparisonsSetFlagOnly := by
  intro gr xr adr r x s hr hx a b
  rw [← subWords_eq_ofInt, ← subWordsUnsigned_eq_ofInt]
  refine ⟨⟨rfl, ?cpa⟩, ⟨rfl, ?cpl⟩⟩
  case cpa => exact givesFlag_of_compareOp rfl (exec_cpa_eq_compareOp ..) hr hx
  case cpl => exact givesFlag_of_compareOp rfl (exec_cpl_eq_compareOp ..) hr hx

end Sys2Proof
end

section
/-! SUPPORT. What each jump condition reads of FR (R170 to R174), and a jump with legal fields (R175), with its frame,
said once for all five. From these, the statement of spec/46_jump.md. -/

namespace Sys2Proof.Machine

/-! ## The jump conditions (R27, R175) -/

/-- A word reads as negative when its bit 15 is set (R8). -/
theorem s16_neg_iff (v : Word) : s16 v < 0 ↔ v.getLsbD 15 = true := by
  have hlt := u16_lt v
  have hnonneg := u16_nonneg v
  rw [s16_eq_ite]
  cases v.getLsbD 15 with
  | false => simpa using hnonneg
  | true => simpa using hlt

theorem JumpCond.taken_plusOrZero_iff (fr : Word) : JumpCond.plusOrZero.taken fr = true ↔ fr.getLsbD 15 = false := by
  rw [← Bool.not_eq_true, ← s16_neg_iff, not_lt]
  exact decide_eq_true_iff

theorem JumpCond.taken_minus_iff (fr : Word) : JumpCond.minus.taken fr = true ↔ fr.getLsbD 15 = true :=
  decide_eq_true_iff.trans (s16_neg_iff fr)

theorem JumpCond.taken_zero_iff (fr : Word) : JumpCond.zero.taken fr = true ↔ fr = 0 := beq_iff_eq

theorem JumpCond.taken_nonZero_iff (fr : Word) : JumpCond.nonZero.taken fr = true ↔ fr ≠ 0 := bne_iff_ne

/-! ## Jumps with legal fields (R175) -/

/-- With legal fields a jump sets PC, to the effective address or on to the next instruction. -/
theorem jumpOp_legal {m : Mnemonic} {gr xr : Nibble} {r x : Reg} (hr : Reg.ofField gr = some r)
    (hx : Reg.ofField xr = some x) (c : JumpCond) (adr : Word) (s : State) :
    jumpOp m c gr xr adr s = .next (setPc (if c.taken s.fr then effectiveAddress x adr s else npc m s) s) :=
  withFields_legal hr hx s _

/-- A completed instruction that sets PC does no more. -/
theorem goesTo_of_exec {i : Instr} {s : State} {p : Word} (h : exec i s = .next (setPc p s)) : GoesTo i s p := by
  refine ⟨_, h, ?regs, ?fr, ?pc, ?mem, ?control⟩
  case regs => exact fun q => by simp
  case fr => simp
  case pc => simp
  case mem => exact fun a => by simp
  case control => simp [SameControl, SameRecord]

/-- A two-word instruction of the jump shape goes to the effective address if `P` holds, `P` being what its condition
says of FR, and two words on otherwise. -/
theorem goesTo_of_jumpOp {i : Instr} {c : JumpCond} {gr xr : Nibble} {adr : Word} {r x : Reg} {s : State}
    {P : Prop} [Decidable P] (hm : i.mnemonic.words = 2) (hexec : exec i s = jumpOp i.mnemonic c gr xr adr s)
    (hr : Reg.ofField gr = some r) (hx : Reg.ofField xr = some x) (hP : c.taken s.fr = true ↔ P) :
    GoesTo i s (if P then effectiveAddress x adr s else s.pc + 2) := by
  refine goesTo_of_exec ((hexec.trans (jumpOp_legal hr hx c adr s)).trans ?_)
  simp only [hP, npc_of_two_words hm]

/-! ## JMP, JPZ, JMI, JNZ and JZE (R170 to R174) -/

theorem exec_jmp_eq_jumpOp (gr xr : Nibble) (adr : Word) (s : State) :
    exec (.jmp gr xr adr) s = jumpOp .jmp .always gr xr adr s := rfl

theorem exec_jpz_eq_jumpOp (gr xr : Nibble) (adr : Word) (s : State) :
    exec (.jpz gr xr adr) s = jumpOp .jpz .plusOrZero gr xr adr s := rfl

theorem exec_jmi_eq_jumpOp (gr xr : Nibble) (adr : Word) (s : State) :
    exec (.jmi gr xr adr) s = jumpOp .jmi .minus gr xr adr s := rfl

theorem exec_jnz_eq_jumpOp (gr xr : Nibble) (adr : Word) (s : State) :
    exec (.jnz gr xr adr) s = jumpOp .jnz .nonZero gr xr adr s := rfl

theorem exec_jze_eq_jumpOp (gr xr : Nibble) (adr : Word) (s : State) :
    exec (.jze gr xr adr) s = jumpOp .jze .zero gr xr adr s := rfl

end Sys2Proof.Machine

namespace Sys2Proof

open Sys2Proof.Machine

/-! ## The statement -/

/-- Settles O21: JMP sets PC with no condition; the other four differ in their opcode and in what their condition reads
of FR, and where they go, and that nothing else changes, is one lemma for all four. -/
theorem jumpsGoOnTheirCondition : Obligations.JumpsGoOnTheirCondition := by
  intro gr xr adr r x s hr hx ea
  refine ⟨⟨rfl, ?jmp⟩, ⟨rfl, ?jpz⟩, ⟨rfl, ?jmi⟩, ⟨rfl, ?jnz⟩, ⟨rfl, ?jze⟩⟩
  case jmp => exact goesTo_of_exec ((exec_jmp_eq_jumpOp ..).trans (jumpOp_legal hr hx .always adr s))
  case jpz => exact goesTo_of_jumpOp rfl (exec_jpz_eq_jumpOp ..) hr hx (JumpCond.taken_plusOrZero_iff _)
  case jmi => exact goesTo_of_jumpOp rfl (exec_jmi_eq_jumpOp ..) hr hx (JumpCond.taken_minus_iff _)
  case jnz => exact goesTo_of_jumpOp rfl (exec_jnz_eq_jumpOp ..) hr hx (JumpCond.taken_nonZero_iff _)
  case jze => exact goesTo_of_jumpOp rfl (exec_jze_eq_jumpOp ..) hr hx (JumpCond.taken_zero_iff _)

end Sys2Proof
end

section
/-! SUPPORT. The states PUSH, POP, CALL and RET leave when their fields are legal (R180 to R183), and that the two
pushes move SP down by one and the two pops back up (R184). From these, statements of spec/47_stack_call.md. -/

namespace Sys2Proof.Machine

/-! ## One register written -/

/-- The two clauses of `OnlyReg` as one equation. -/
theorem onlyReg_of_readReg_eq_ite {s t : State} {r : Reg} {v : Word}
    (h : ∀ q, readReg q t = if q = r then v else readReg q s) : OnlyReg s t r v := by
  refine ⟨?_, fun q hq => ?_⟩
  · rw [h, if_pos rfl]
  · rw [h, if_neg hq]

/-! ## PUSH, POP, CALL and RET with legal fields (R180 to R183) -/

section
variable {gr xr : Nibble} {r x : Reg}

theorem exec_push_of_legal (hr : Reg.ofField gr = some r) (hx : Reg.ofField xr = some x) (adr : Word) (s : State) :
    exec (.push gr xr adr) s =
      .next (setPc (npc .push s)
        (writeReg .sp (pushAddress s) (memWrite (pushAddress s) (memRead (effectiveAddress x adr s) s) s))) :=
  withFields_legal hr hx s _

theorem exec_pop_of_legal (hr : Reg.ofField gr = some r) (hx : Reg.ofField xr = some x) (s : State) :
    exec (.pop gr xr) s =
      .next (setPc (npc .pop s)
        (writeReg .sp (poppedSp (writeReg r (memRead (readReg .sp s) s) s))
          (writeReg r (memRead (readReg .sp s) s) s))) :=
  withFields_legal hr hx s _

/-- SP as the increment of a POP reads it is the SP before the POP, unless the POP is into GR4 (decision D20). -/
theorem exec_pop_of_ne_sp (hr : Reg.ofField gr = some r) (hx : Reg.ofField xr = some x) (hsp : r ≠ .sp) (s : State) :
    exec (.pop gr xr) s =
      .next (setPc (npc .pop s)
        (writeReg .sp (readReg .sp s + 1) (writeReg r (memRead (readReg .sp s) s) s))) := by
  rw [exec_pop_of_legal hr hx, poppedSp_eq, readReg_writeReg_of_ne hsp.symm]

theorem exec_call_of_legal (hr : Reg.ofField gr = some r) (hx : Reg.ofField xr = some x) (adr : Word) (s : State) :
    exec (.call gr xr adr) s =
      .next (writeReg .sp (pushAddress s)
        (setPc (memRead (effectiveAddress x adr s) (memWrite (pushAddress s) (npc .call s) s))
          (memWrite (pushAddress s) (npc .call s) s))) :=
  withFields_legal hr hx s _

theorem exec_ret_of_legal (hr : Reg.ofField gr = some r) (hx : Reg.ofField xr = some x) (s : State) :
    exec (.ret gr xr) s =
      .next (writeReg .sp (poppedSp (setPc (memRead (readReg .sp s) s) s)) (setPc (memRead (readReg .sp s) s) s)) :=
  withFields_legal hr hx s _

/-- After a CALL the top of the stack is the address after it, and SP is one below where it was (R182). -/
theorem exec_call_pushes (hr : Reg.ofField gr = some r) (hx : Reg.ofField xr = some x) (adr : Word) (s : State) :
    ∃ t, exec (.call gr xr adr) s = .next t ∧ readReg .sp t = readReg .sp s - 1 ∧
      memRead (readReg .sp t) t = s.pc + 2 := by
  refine ⟨_, exec_call_of_legal hr hx adr s, ?sp, ?top⟩
  case sp => rw [readReg_writeReg_same, pushAddress_eq]
  case top =>
    rw [readReg_writeReg_same, memRead_writeReg, memRead_setPc, memRead_memWrite_same]
    exact npc_of_two_words rfl s

end

end Sys2Proof.Machine

namespace Sys2Proof

open Sys2Proof.Machine

/-! ## The statements -/

/-- Settles O23: one cell write, SP and the advanced PC; the operand is read before any of them. -/
theorem pushStoresAndDecrements : Obligations.PushStoresAndDecrements := by
  intro gr xr adr r x s hr hx
  refine ⟨rfl, pushAddress_eq s, _, exec_push_of_legal hr hx adr s, ?cell, ?reg, ?pc, ?fr, ?control⟩
  case cell => exact onlyCell_memWrite (by simp)
  case reg => exact onlyReg_of_readReg_eq_ite fun q => by simp [readReg_writeReg, pushAddress_eq]
  case pc => exact npc_of_two_words rfl s
  case fr => simp
  case control => simp [SameControl, SameRecord]

/-- Settles O26: the popped word goes to PC, and after that only SP is written. -/
theorem retPopsThePc : Obligations.RetPopsThePc := by
  intro gr xr r x s hr hx
  refine ⟨rfl, _, exec_ret_of_legal hr hx s, ?pc, ?reg, ?fr, ?mem, ?control⟩
  case pc => simp
  case reg => exact onlyReg_of_readReg_eq_ite fun q => by simp [readReg_writeReg, poppedSp_eq]
  case fr => simp
  case mem => exact fun a => by simp
  case control => simp [SameControl, SameRecord]

/-- Settles O27: SP after the PUSH is the address pushed to, so the POP reads the word pushed and adds back the one
that the PUSH took from SP. -/
theorem pushThenPopRoundTrip : Obligations.PushThenPopRoundTrip := by
  intro g1 x1 g2 x2 adr r1 x r x2' s hr1 hx1 hr hx2 hsp
  obtain ⟨-, haddr, t, hpush, ⟨hcell, -⟩, ⟨hdown, hregs⟩, -, hfr, -⟩ :=
    pushStoresAndDecrements g1 x1 adr r1 x s hr1 hx1
  have htop : memRead (readReg .gr4 t) t = memRead (effectiveAddress x adr s) s := by rw [hdown, ← haddr, hcell]
  have hback : readReg .gr4 t + 1 = readReg .gr4 s := by rw [hdown, BitVec.sub_add_cancel]
  refine ⟨t, _, hpush, exec_pop_of_ne_sp hr hx2 hsp t, onlyReg_of_readReg_eq_ite fun q => ?regs, ?sp, ?fr⟩
  case regs =>
    rw [readReg_setPc, readReg_writeReg, readReg_writeReg, htop, hback]
    by_cases hq : q = .gr4
    · rw [if_pos hq, hq, if_neg hsp.symm]
    · rw [if_neg hq, hregs q hq]
  case sp => rw [readReg_setPc, readReg_writeReg_same, hback]
  case fr => simpa using hfr

/-- Settles O28: the top of the stack the CALL left is the address after it, and that is all RET reads but SP. -/
theorem callThenRetRoundTrip : Obligations.CallThenRetRoundTrip := by
  intro g1 x1 g2 x2 adr r1 x r2 x2' s u hr1 hx1 hr2 hx2
  obtain ⟨t, hcall, hdown, htop⟩ := exec_call_pushes hr1 hx1 adr s
  refine ⟨t, hcall, fun hsp hcell => ?_⟩
  obtain ⟨-, v, hret, hpc, ⟨hup, -⟩, -⟩ := retPopsThePc g2 x2 r2 x2' u hr2 hx2
  refine ⟨v, hret, ?pc, ?sp⟩
  case pc => rw [hpc, hsp, hcell, htop]
  case sp => rw [hup, hsp, hdown, BitVec.sub_add_cancel]

end Sys2Proof
end

section
/-! SUPPORT. That an instruction, a step, a run and every other move of the host keep memory in its canonical form, and
that a step halts with every fault it records (R223, R228); from these, the invariant of steps and of host moves. -/

namespace Sys2Proof.Machine

/-! ## The canonical form (log entry 4) -/

theorem StoresOnlyAt.wf {c : Option Word} {s t : State} (h : StoresOnlyAt c s t) (hs : s.mem.wf) : t.mem.wf := by
  rcases h with hmem | ⟨a, v, -, hmem⟩
  · rwa [hmem]
  · rw [hmem]
    exact Memory.wf_write hs a v

/-- An instruction stores at most one cell; SYSCALL's handler makes a list of writes. -/
theorem exec_wf {i : Instr} {s t : State} (h : exec i s = .next t) (hs : s.mem.wf) : t.mem.wf := by
  cases i with
  | syscall id =>
    rcases execSyscall_next h with ⟨-, rfl⟩ | ⟨r, x, -, -, rfl⟩
    · exact hs
    · exact trapWith_wf _ id _ hs
  | _ => exact (exec_storesOnlyAt h nofun).wf hs

theorem step_wf {s t : State} (h : step s = .next t) (hs : s.mem.wf) : t.mem.wf := by
  rcases step_cases s with ⟨-, hstep⟩ | ⟨-, i, -, hstep⟩ | ⟨-, -, hstep⟩ <;> rw [hstep] at h
  · cases h; exact hs
  · exact exec_wf h hs
  · cases h; exact hs

theorem runFor_wf {n : Nat} {s t : State} (h : runFor n s = .next t) (hs : s.mem.wf) : t.mem.wf := by
  induction n generalizing s with
  | zero => cases h; exact hs
  | succ n ih =>
    rcases runFor_succ_next h with ⟨-, rfl⟩ | ⟨-, u, hstep, hrest⟩
    · exact hs
    · exact ih hrest (step_wf hstep hs)

/-! ## A recorded fault halts (R223) -/

/-- An instruction that starts with no fault recorded ends with none, or halted. -/
theorem exec_fault_halts {i : Instr} {s t : State} (hs : s.faultCause = .none) (h : exec i s = .next t)
    (ht : t.faultCause ≠ .none) : t.halted = true := by
  rcases exec_control h with (⟨c, -, rfl⟩ | ⟨-, hcause, -⟩) | ⟨-, rfl⟩ | ⟨id, -, rfl⟩
  · exact raiseFault_halted ..
  · exact absurd (hcause.trans hs) ht
  · exact setHalted_halted ..
  · obtain ⟨hcause, -⟩ := trapWith_frame Config.handler id (setPc (npc .syscall s) s)
    exact absurd (hcause.trans hs) ht

theorem step_fault_halts {s t : State} (hs : s.faultCause ≠ .none → s.halted = true) (h : step s = .next t)
    (ht : t.faultCause ≠ .none) : t.halted = true := by
  rcases step_cases s with ⟨hhalted, hstep⟩ | ⟨hrunning, i, -, hstep⟩ | ⟨-, -, hstep⟩ <;> rw [hstep] at h
  · cases h; exact hhalted
  · have hnone : s.faultCause = .none := not_not.mp fun hfault => by simp [hs hfault] at hrunning
    exact exec_fault_halts hnone h ht
  · cases h; exact raiseFault_halted ..

end Sys2Proof.Machine

namespace Sys2Proof

open Sys2Proof.Machine

/-! ## The statements -/

/-- Settles O46: the two halves of the invariant are kept separately, the second because a machine that still runs has
no fault recorded. -/
theorem stepKeepsInv : Obligations.StepKeepsInv :=
  fun _ _ hs h => ⟨step_wf h hs.memory_canonical, step_fault_halts hs.fault_halts h⟩

/-- Settles O52, move by move: a reset builds memory from an image that fits, a restore brings the snapshot's, an
`alter` is one write, and the writes of registers and flags leave memory alone. -/
theorem hostMovesKeepCanonicalMemory : Obligations.HostMovesKeepCanonicalMemory := by
  intro m s t hs hsnap h
  cases m with
  | reset image startPc hook =>
    obtain ⟨hfits, -, rfl⟩ := resetPort_next h
    exact (resetState_inv hfits _ hook).memory_canonical
  | step => exact step_wf h hs
  | run fuel => exact runFor_wf h hs
  | alter a v => cases h; exact Memory.wf_write hs a v
  | clear snap => cases h; exact hsnap snap rfl
  | writeReg r v => cases h; rwa [hostWriteReg, writeReg_mem]
  | jump | writeFr | writeHalted => cases h; exact hs

end Sys2Proof
end

section
/-! SUPPORT. DIV and MOD under the bound policy (R133 to R135): a zero divisor traps, any other gives a word, which no
policy touches (U1); and how a result-producing instruction whose operands trap takes the fault (R222, R223). From
these, the statements of spec/42_arithmetic.md on division. -/

namespace Sys2Proof.Machine

/-! ## Operands that trap (R222) -/

/-- An instruction of the result-producing shape takes ArithmeticFault, with legal fields and operands that trap. -/
theorem takesFault_of_resultOp {i : Instr} {f : Word → Word → AluResult} {gr xr : Nibble} {adr : Word} {r x : Reg}
    {s : State} (hexec : exec i s = resultOp i.mnemonic f gr xr adr s)
    (hr : Reg.ofField gr = some r) (hx : Reg.ofField xr = some x)
    (hf : f (readReg r s) (memRead (effectiveAddress x adr s) s) = .trap) :
    TakesFault i s .arithmeticFault (word0Of i.mnemonic.opc gr xr) :=
  ⟨_, hexec.trans (resultOp_trap hr hx hf), faultTaken_raiseFault _ _ s⟩

/-! ## DIV and MOD (R133, R134, R135) -/

theorem exec_div_eq_resultOp (gr xr : Nibble) (adr : Word) (s : State) :
    exec (.div gr xr adr) s = resultOp .div (divWords divzPolicy) gr xr adr s := rfl

theorem exec_mod_eq_resultOp (gr xr : Nibble) (adr : Word) (s : State) :
    exec (.mod gr xr adr) s = resultOp .mod (modWords divzPolicy) gr xr adr s := rfl

/-- The quotient rounded toward zero (decision D5). -/
theorem divWords_eq_tdiv (p : Config.DivzPolicy) (a : Word) {b : Word} (hb : b ≠ 0) :
    divWords p a b = .value (BitVec.ofInt 16 (a.toInt.tdiv b.toInt)) :=
  divWords_of_ne_zero p a hb

/-- The remainder that pairs with that quotient has the sign of the dividend (decision D5). -/
theorem modWords_eq_tmod (p : Config.DivzPolicy) (a : Word) {b : Word} (hb : b ≠ 0) :
    modWords p a b = .value (BitVec.ofInt 16 (a.toInt.tmod b.toInt)) := by
  rw [modWords_of_ne_zero p a hb, Int.tmod_def, mul_comm b.toInt]
  rfl

theorem divWords_bound_zero (a : Word) : divWords divzPolicy a 0 = .trap := divWords_zero divzPolicy a

theorem modWords_bound_zero (a : Word) : modWords divzPolicy a 0 = .trap := modWords_zero divzPolicy a

end Sys2Proof.Machine

namespace Sys2Proof

open Sys2Proof.Machine

/-! ## The statements -/

/-- Settles O13: with a divisor that is not 0 both operations give a word, the one of Lean's truncating division. -/
theorem divModTruncate : Obligations.DivModTruncate := by
  intro gr xr adr r x s hr hx hb a b
  refine ⟨?div, ?mod⟩
  case div => exact givesResult_of_resultOp rfl (exec_div_eq_resultOp ..) hr hx (divWords_eq_tdiv divzPolicy _ hb)
  case mod => exact givesResult_of_resultOp rfl (exec_mod_eq_resultOp ..) hr hx (modWords_eq_tmod divzPolicy _ hb)

/-- Settles O14: the bound policy makes a zero divisor trap. -/
theorem divModByZeroFault : Obligations.DivModByZeroFault := by
  intro gr xr adr r x s hr hx hb
  refine ⟨?div, ?mod⟩
  case div => exact takesFault_of_resultOp (exec_div_eq_resultOp ..) hr hx (by rw [hb, divWords_bound_zero])
  case mod => exact takesFault_of_resultOp (exec_mod_eq_resultOp ..) hr hx (by rw [hb, modWords_bound_zero])

end Sys2Proof
end

section
/-! SUPPORT. The four shifts as one formula each for every number of positions (R150 to R154): the model's cut at 16 is
what the formula gives from there on. Then the bound policy by the sign of the count (decision D7) and all policies on
counts 0 to 15 (U2). From these, the statements of spec/44_shift.md, of U1 and U2, and on the instructions that
do the same (R155, R162). -/

namespace Sys2Proof.Machine

/-! ## Shifts by any number of positions (R150) -/

/-- From 16 positions up every bit is shifted out. -/
theorem wrap16_mul_two_pow_of_ge (k : Int) {n : Nat} (h : 16 ≤ n) : wrap16 (k * 2 ^ n) = 0 := by
  obtain ⟨d, rfl⟩ := Nat.exists_eq_add_of_le h
  have hall : wrap16 (2 ^ 16) = 0 := rfl
  rw [pow_add, wrap16_mul, wrap16_mul, hall]
  simp

theorem shiftLeftArith_eq (v : Word) (n : Nat) : shiftLeftArith v n = wrap16 (s16 v * 2 ^ n) := by
  unfold shiftLeftArith
  split
  · rfl
  · exact (wrap16_mul_two_pow_of_ge _ (not_lt.mp ‹_›)).symm

theorem shiftLeftLogical_eq (v : Word) (n : Nat) : shiftLeftLogical v n = wrap16 (u16 v * 2 ^ n) := by
  unfold shiftLeftLogical
  split
  · rfl
  · exact (wrap16_mul_two_pow_of_ge _ (not_lt.mp ‹_›)).symm

/-- R155: the two readings of a word are congruent, and so are their multiples. -/
theorem shiftLeftArith_eq_shiftLeftLogical (v : Word) (n : Nat) : shiftLeftArith v n = shiftLeftLogical v n := by
  rw [shiftLeftArith_eq, shiftLeftLogical_eq, wrap16_mul, wrap16_mul, wrap16_s16, wrap16_u16]

/-- 16 positions take the divisor to the size of every reading of a word. -/
theorem le_two_pow_of_ge {n : Nat} (h : 16 ≤ n) : (65536 : Int) ≤ 2 ^ n :=
  pow_le_pow_right₀ (a := (2 : Int)) (by decide) h

theorem shiftRightArith_eq (v : Word) (n : Nat) : shiftRightArith v n = wrap16 (s16 v / 2 ^ n) := by
  have hnonneg := u16_nonneg v
  have hlt := u16_lt v
  have hreading := s16_eq_u16_or v
  unfold shiftRightArith
  split
  · rfl
  · have hbig := le_two_pow_of_ge (not_lt.mp ‹_›)
    split
    · have hfloor : s16 v / 2 ^ n = -1 := Int.ediv_eq_neg_one_of_neg_of_le ‹_› (by omega)
      rw [hfloor]
      rfl
    · have hfloor : s16 v / 2 ^ n = 0 := Int.ediv_eq_zero_of_lt (not_lt.mp ‹_›) (by omega)
      rw [hfloor]
      rfl

theorem shiftRightLogical_eq (v : Word) (n : Nat) : shiftRightLogical v n = wrap16 (u16 v / 2 ^ n) := by
  unfold shiftRightLogical
  split
  · rfl
  · have hfloor : u16 v / 2 ^ n = 0 :=
      Int.ediv_eq_zero_of_lt (u16_nonneg v) (lt_of_lt_of_le (u16_lt v) (le_two_pow_of_ge (not_lt.mp ‹_›)))
    rw [hfloor]
    rfl

/-! ## The count under the policies (R150, U2) -/

theorem shiftWords_of_nonneg (m : Mnemonic) (f : Word → Nat → Word) (v : Word) {c : Word} (h : 0 ≤ s16 c) :
    shiftWords shiftPolicy m f v c = .value (f v c.toNat) := by
  rcases shiftWords_cases m f v c with ⟨-, hvalue⟩ | ⟨hneg, -⟩
  · exact hvalue
  · exact absurd h (not_le.mpr hneg)

theorem shiftWords_of_neg (m : Mnemonic) (f : Word → Nat → Word) (v : Word) {c : Word} (h : s16 c < 0) :
    shiftWords shiftPolicy m f v c = .trap := by
  rcases shiftWords_cases m f v c with ⟨hnonneg, -⟩ | ⟨-, htrap⟩
  · exact absurd h (not_lt.mpr hnonneg)
  · exact htrap

/-- A count of 0 to 15 is taken as it is under every policy. -/
theorem shiftCount_of_le_15 (p : Config.ShiftPolicy) {c : Word} (h : c.toNat ≤ 15) :
    shiftCount p c = .positions c.toNat := by
  have hnonneg : ¬ s16 c < 0 := by
    rw [s16_neg_iff, BitVec.getLsbD, Nat.testBit_lt_two_pow (by omega)]
    decide
  cases p with
  | iterateFault | stuck => exact if_neg hnonneg
  | mask4 => exact congrArg ShiftCount.positions (Nat.mod_eq_of_lt (by omega))
  | mask5 => exact congrArg ShiftCount.positions (Nat.mod_eq_of_lt (by omega))
  | anyValue => exact if_pos (by omega)

theorem shiftWords_of_le_15 (p : Config.ShiftPolicy) (m : Mnemonic) (f : Word → Nat → Word) (v : Word) {c : Word}
    (h : c.toNat ≤ 15) : shiftWords p m f v c = .value (f v c.toNat) := by
  rw [shiftWords, shiftCount_of_le_15 p h]

/-! ## SLA, SRA, SLL and SRL (R151 to R154) -/

theorem exec_sla_eq_resultOp (gr xr : Nibble) (adr : Word) (s : State) :
    exec (.sla gr xr adr) s = resultOp .sla (shiftWords shiftPolicy .sla shiftLeftArith) gr xr adr s := rfl

theorem exec_sra_eq_resultOp (gr xr : Nibble) (adr : Word) (s : State) :
    exec (.sra gr xr adr) s = resultOp .sra (shiftWords shiftPolicy .sra shiftRightArith) gr xr adr s := rfl

theorem exec_sll_eq_resultOp (gr xr : Nibble) (adr : Word) (s : State) :
    exec (.sll gr xr adr) s = resultOp .sll (shiftWords shiftPolicy .sll shiftLeftLogical) gr xr adr s := rfl

theorem exec_srl_eq_resultOp (gr xr : Nibble) (adr : Word) (s : State) :
    exec (.srl gr xr adr) s = resultOp .srl (shiftWords shiftPolicy .srl shiftRightLogical) gr xr adr s := rfl

/-- A two-word instruction of the shift shape gives `w` if its shift by the whole count does. -/
theorem givesResult_of_shift {i : Instr} {f : Word → Nat → Word} {gr xr : Nibble} {adr w : Word} {r x : Reg}
    {s : State} (hm : i.mnemonic.words = 2)
    (hexec : exec i s = resultOp i.mnemonic (shiftWords shiftPolicy i.mnemonic f) gr xr adr s)
    (hr : Reg.ofField gr = some r) (hx : Reg.ofField xr = some x)
    (hc : 0 ≤ s16 (memRead (effectiveAddress x adr s) s))
    (hw : f (readReg r s) (memRead (effectiveAddress x adr s) s).toNat = w) : GivesResult i s r w := by
  subst hw
  exact givesResult_of_resultOp hm hexec hr hx (shiftWords_of_nonneg _ f _ hc)

/-- An instruction of the shift shape faults on a negative count. -/
theorem takesFault_of_shift {i : Instr} {f : Word → Nat → Word} {gr xr : Nibble} {adr : Word} {r x : Reg} {s : State}
    (hexec : exec i s = resultOp i.mnemonic (shiftWords shiftPolicy i.mnemonic f) gr xr adr s)
    (hr : Reg.ofField gr = some r) (hx : Reg.ofField xr = some x)
    (hc : s16 (memRead (effectiveAddress x adr s) s) < 0) :
    TakesFault i s .arithmeticFault (word0Of i.mnemonic.opc gr xr) :=
  takesFault_of_resultOp hexec hr hx (shiftWords_of_neg _ f _ hc)

/-- The wrap of a number that is not negative is its low 16 bits. -/
theorem wrap16_natCast (n : Nat) : wrap16 n = BitVec.ofNat 16 n := BitVec.ofInt_natCast 16 n

end Sys2Proof.Machine

namespace Sys2Proof

open Sys2Proof.Machine

/-! ## The statements -/

/-- Settles O17: each shift is its formula for every number of positions, and the bound policy takes a count that is not
negative as it is. -/
theorem shiftsByEveryCount : Obligations.ShiftsByEveryCount := by
  intro gr xr adr r x s hr hx v c hc
  refine ⟨?sla, ?sra, ?sll, ?srl⟩
  case sla => exact givesResult_of_shift rfl (exec_sla_eq_resultOp ..) hr hx hc (shiftLeftArith_eq v _)
  case sra => exact givesResult_of_shift rfl (exec_sra_eq_resultOp ..) hr hx hc (shiftRightArith_eq v _)
  case sll =>
    have hnat : shiftLeftLogical v c.toNat = BitVec.ofNat 16 (v.toNat * 2 ^ c.toNat) := by
      rw [shiftLeftLogical_eq, ← wrap16_natCast, Nat.cast_mul, Nat.cast_pow]
      rfl
    exact givesResult_of_shift rfl (exec_sll_eq_resultOp ..) hr hx hc hnat
  case srl =>
    have hnat : shiftRightLogical v c.toNat = BitVec.ofNat 16 (v.toNat / 2 ^ c.toNat) := by
      rw [shiftRightLogical_eq, ← wrap16_natCast, Int.natCast_ediv, Nat.cast_pow]
      rfl
    exact givesResult_of_shift rfl (exec_srl_eq_resultOp ..) hr hx hc hnat

/-- Settles O18: the bound policy makes a negative count trap, whatever the shift. -/
theorem negativeShiftCountFaults : Obligations.NegativeShiftCountFaults := by
  intro gr xr adr r x s hr hx hc
  refine ⟨?sla, ?sra, ?sll, ?srl⟩
  case sla => exact takesFault_of_shift (exec_sla_eq_resultOp ..) hr hx hc
  case sra => exact takesFault_of_shift (exec_sra_eq_resultOp ..) hr hx hc
  case sll => exact takesFault_of_shift (exec_sll_eq_resultOp ..) hr hx hc
  case srl => exact takesFault_of_shift (exec_srl_eq_resultOp ..) hr hx hc

/-- Settles O15: the policies are asked only about a zero divisor, and all of them take a count of 0 to 15 as it is. -/
theorem policiesAgreeOnOrdinaryOperands : Obligations.PoliciesAgreeOnOrdinaryOperands := by
  refine ⟨fun p q a b hb => ⟨?div, ?mod⟩, fun p q m f v c hc => ?shift⟩
  case div => rw [divWords_of_ne_zero p a hb, divWords_of_ne_zero q a hb]
  case mod => rw [modWords_of_ne_zero p a hb, modWords_of_ne_zero q a hb]
  case shift => rw [shiftWords_of_le_15 p m f v hc, shiftWords_of_le_15 q m f v hc]

/-- Settles O20: the operations of each pair are the same function, because the two readings of a word are congruent
modulo 65536. -/
theorem twinInstructionsAgree : Obligations.TwinInstructionsAgree := by
  intro gr xr adr r x s hr hx
  constructor
  · intro hc
    have hsla := (exec_sla_eq_resultOp gr xr adr s).trans (resultOp_value hr hx (shiftWords_of_nonneg _ _ _ hc))
    have hsll := (exec_sll_eq_resultOp gr xr adr s).trans (resultOp_value hr hx (shiftWords_of_nonneg _ _ _ hc))
    rw [shiftLeftArith_eq_shiftLeftLogical] at hsla
    exact ⟨_, hsla, hsll⟩
  · have hcpa := (exec_cpa_eq_compareOp gr xr adr s).trans (compareOp_legal hr hx _ adr s)
    have hcpl := (exec_cpl_eq_compareOp gr xr adr s).trans (compareOp_legal hr hx _ adr s)
    rw [subWords_eq, ← subWordsUnsigned_eq] at hcpa
    exact ⟨_, hcpa, hcpl⟩

end Sys2Proof
end

section
/-! SUPPORT. What a step leaves of the fault record: every instruction answers a next state (decisions D6, D7), six
alone raise ArithmeticFault (R222), and none reads the record (R29, decision D10). Then the host's restore, its `jump`
and the status code (R238, R239). From these, the statements of spec/60_exceptions.md. -/

namespace Sys2Proof.Machine

/-! ## Every instruction answers a next state (decisions D6, D7) -/

theorem withFields_answers {m : Mnemonic} {gr xr : Nibble} {s : State} {k : Reg → Reg → StepResult}
    (h : ∀ r x, ∃ t, k r x = .next t) : ∃ t, withFields m gr xr s k = .next t := by
  rcases withFields_cases m gr xr s k with ⟨r, x, -, -, he⟩ | ⟨-, he⟩ <;> rw [he]
  · exact h r x
  · exact ⟨_, rfl⟩

/-- An operation that gives a word or traps, and is never stuck, makes an instruction that goes on. -/
theorem resultOp_answers {m : Mnemonic} {f : Word → Word → AluResult} {gr xr : Nibble} {adr : Word} {s : State}
    (h : ∀ a b, (∃ v, f a b = .value v) ∨ f a b = .trap) : ∃ t, resultOp m f gr xr adr s = .next t := by
  refine withFields_answers fun r x => ?_
  rcases h (readReg r s) (memRead (effectiveAddress x adr s) s) with ⟨v, hv⟩ | htrap
  · exact ⟨_, by rw [hv]⟩
  · exact ⟨_, by rw [htrap]⟩

theorem divWords_bound_cases (a b : Word) :
    (∃ v, divWords divzPolicy a b = .value v) ∨ divWords divzPolicy a b = .trap := by
  by_cases hb : b = 0
  · exact .inr (by rw [hb, divWords_bound_zero])
  · exact .inl ⟨_, divWords_eq_tdiv divzPolicy a hb⟩

theorem modWords_bound_cases (a b : Word) :
    (∃ v, modWords divzPolicy a b = .value v) ∨ modWords divzPolicy a b = .trap := by
  by_cases hb : b = 0
  · exact .inr (by rw [hb, modWords_bound_zero])
  · exact .inl ⟨_, modWords_eq_tmod divzPolicy a hb⟩

theorem shiftWords_bound_cases (m : Mnemonic) (f : Word → Nat → Word) (v c : Word) :
    (∃ w, shiftWords shiftPolicy m f v c = .value w) ∨ shiftWords shiftPolicy m f v c = .trap := by
  rcases shiftWords_cases m f v c with ⟨-, hvalue⟩ | ⟨-, htrap⟩
  · exact .inl ⟨_, hvalue⟩
  · exact .inr htrap

/-- Under the bound policies no instruction is without a successor. -/
theorem exec_answers (i : Instr) (s : State) : ∃ t, exec i s = .next t := by
  cases i with
  | add | sub | mul | and | or | eor => exact resultOp_answers (f := AluResult.always _) fun a b => .inl ⟨_, rfl⟩
  | div => exact resultOp_answers divWords_bound_cases
  | mod => exact resultOp_answers modWords_bound_cases
  | sla | sra | sll | srl => exact resultOp_answers (shiftWords_bound_cases _ _)
  | halt | ld | st | lea | cpa | cpl | jmp | jpz | jmi | jnz | jze | push | pop | call | ret | syscall =>
    exact withFields_answers fun r x => ⟨_, rfl⟩

/-- A fault is one of the two the record can name (R220). -/
theorem FaultCause.eq_of_ne_none {c : FaultCause} (h : c ≠ .none) : c = .illegalInstruction ∨ c = .arithmeticFault := by
  cases c with
  | none => exact absurd rfl h
  | illegalInstruction => exact .inl rfl
  | arithmeticFault => exact .inr rfl

/-- An instruction leaves the record and the handler alone or takes one of the two faults. -/
theorem exec_record {i : Instr} {s t : State} (h : exec i s = .next t) :
    SameRecord s t ∨ FaultTaken s t .illegalInstruction i.word0 ∨ FaultTaken s t .arithmeticFault i.word0 := by
  rcases exec_control h with (⟨c, hc, rfl⟩ | ⟨-, hrecord⟩) | ⟨-, rfl⟩ | ⟨id, -, rfl⟩
  · rcases FaultCause.eq_of_ne_none hc with rfl | rfl
    · exact .inr (.inl (faultTaken_raiseFault _ _ s))
    · exact .inr (.inr (faultTaken_raiseFault _ _ s))
  · exact .inl hrecord
  · exact .inl (by simp [SameRecord])
  · exact .inl (trapWith_frame Config.handler id (setPc (npc .syscall s) s))

/-! ## Which instructions raise ArithmeticFault (R222) -/

/-- A meaning that with legal fields answers `g r x` raises no ArithmeticFault if no `g r x` touches the cause. -/
theorem not_arithmeticFault_of_next {P : Prop} {Q R : Reg → Reg → Prop} {w0 : Word} {s t : State}
    {g : Reg → Reg → State}
    (h : (P ∧ t = raiseFault .illegalInstruction s.pc w0 s) ∨ ∃ r x, Q r x ∧ R r x ∧ t = g r x)
    (hs : s.faultCause ≠ .arithmeticFault) (hg : ∀ r x, (g r x).faultCause = s.faultCause) :
    t.faultCause ≠ .arithmeticFault := by
  rcases h with ⟨-, rfl⟩ | ⟨r, x, -, -, rfl⟩
  · rw [raiseFault_faultCause]
    decide
  · rwa [hg]

/-- An operation that gives a word for all operands does not trap. -/
theorem resultOp_always_not_arithmeticFault {m : Mnemonic} {op : Word → Word → Word} {gr xr : Nibble} {adr : Word}
    {s t : State} (h : resultOp m (AluResult.always op) gr xr adr s = .next t)
    (hs : s.faultCause ≠ .arithmeticFault) : t.faultCause ≠ .arithmeticFault := by
  rcases resultOp_next h with ⟨-, rfl⟩ | ⟨r, x, -, -, ⟨v, -, rfl⟩ | ⟨htrap, -⟩⟩
  · rw [raiseFault_faultCause]
    decide
  · simpa using hs
  · cases htrap

/-- Only DIV, MOD and the four shifts raise ArithmeticFault. -/
theorem exec_arithmeticFault {i : Instr} {s t : State} (h : exec i s = .next t)
    (hs : s.faultCause ≠ .arithmeticFault) (ht : t.faultCause = .arithmeticFault) :
    i.mnemonic ∈ [Mnemonic.div, .mod, .sla, .sra, .sll, .srl] := by
  cases i with
  | div | mod | sla | sra | sll | srl => simp [Instr.mnemonic]
  | add | sub | mul | and | or | eor => exact absurd ht (resultOp_always_not_arithmeticFault h hs)
  | cpa | cpl => exact absurd ht (not_arithmeticFault_of_next (compareOp_next h) hs (by simp))
  | jmp | jpz | jmi | jnz | jze => exact absurd ht (not_arithmeticFault_of_next (jumpOp_next h) hs (by simp))
  | halt => exact absurd ht (not_arithmeticFault_of_next (execHalt_next h) hs (by simp))
  | ld => exact absurd ht (not_arithmeticFault_of_next (execLd_next h) hs (by simp))
  | st => exact absurd ht (not_arithmeticFault_of_next (execSt_next h) hs (by simp))
  | lea => exact absurd ht (not_arithmeticFault_of_next (execLea_next h) hs (by simp))
  | push => exact absurd ht (not_arithmeticFault_of_next (execPush_next h) hs (by simp))
  | pop => exact absurd ht (not_arithmeticFault_of_next (execPop_next h) hs (by simp))
  | call => exact absurd ht (not_arithmeticFault_of_next (execCall_next h) hs (by simp))
  | ret => exact absurd ht (not_arithmeticFault_of_next (execRet_next h) hs (by simp))
  | syscall id =>
    refine absurd ht (not_arithmeticFault_of_next (execSyscall_next h) hs fun r x => ?_)
    obtain ⟨hcause, -⟩ := trapWith_frame Config.handler id (setPc (npc .syscall s) s)
    exact hcause

/-! ## No instruction reads the fault record (R29, decision D10) -/

/-- The state with another fault record. -/
def State.withRecord (c : FaultCause) (a w : Word) (s : State) : State :=
  { s with faultCause := c, faultAddr := a, faultWord := w }

section
variable (c : FaultCause) (a w : Word) (s : State)

/-! What an instruction reads is the same under another record. -/

@[simp] theorem withRecord_pc : (s.withRecord c a w).pc = s.pc := rfl
@[simp] theorem withRecord_fr : (s.withRecord c a w).fr = s.fr := rfl
@[simp] theorem withRecord_halted : (s.withRecord c a w).halted = s.halted := rfl
@[simp] theorem withRecord_hook : (s.withRecord c a w).hook = s.hook := rfl
@[simp] theorem withRecord_handlerView : (s.withRecord c a w).handlerView = s.handlerView := rfl
@[simp] theorem readReg_withRecord (r : Reg) : readReg r (s.withRecord c a w) = readReg r s := by cases r <;> rfl
@[simp] theorem memRead_withRecord (p : Word) : memRead p (s.withRecord c a w) = memRead p s := rfl
@[simp] theorem npc_withRecord (m : Mnemonic) : npc m (s.withRecord c a w) = npc m s := rfl
@[simp] theorem pushAddress_withRecord : pushAddress (s.withRecord c a w) = pushAddress s := rfl
@[simp] theorem poppedSp_withRecord : poppedSp (s.withRecord c a w) = poppedSp s := rfl

@[simp] theorem effectiveAddress_withRecord (x : Reg) (adr : Word) :
    effectiveAddress x adr (s.withRecord c a w) = effectiveAddress x adr s := by
  cases x <;> rfl

/-! What an instruction writes is written beside the record, but for a fault, which replaces it. -/

@[simp] theorem setPc_withRecord (p : Word) : setPc p (s.withRecord c a w) = (setPc p s).withRecord c a w := rfl
@[simp] theorem setFr_withRecord (v : Word) : setFr v (s.withRecord c a w) = (setFr v s).withRecord c a w := rfl

@[simp] theorem setHalted_withRecord (b : Bool) :
    setHalted b (s.withRecord c a w) = (setHalted b s).withRecord c a w := rfl

@[simp] theorem memWrite_withRecord (p v : Word) :
    memWrite p v (s.withRecord c a w) = (memWrite p v s).withRecord c a w := rfl

@[simp] theorem writeReg_withRecord (r : Reg) (v : Word) :
    writeReg r v (s.withRecord c a w) = (writeReg r v s).withRecord c a w := by
  cases r <;> rfl

@[simp] theorem writeResult_withRecord (r : Reg) (v : Word) :
    writeResult r v (s.withRecord c a w) = (writeResult r v s).withRecord c a w := by
  simp [writeResult]

@[simp] theorem raiseFault_withRecord (c' : FaultCause) (a' w' : Word) :
    raiseFault c' a' w' (s.withRecord c a w) = raiseFault c' a' w' s := rfl

/-- The handler sees no fault record and changes none (decision D16). -/
@[simp] theorem trapWith_withRecord (hs : Nat → Config.HandlerView → Byte → Config.HandlerReply) (id : Byte) :
    trapWith hs id (s.withRecord c a w) = (trapWith hs id s).withRecord c a w := by
  cases h : s.hook with
  | none => rw [trapWith_none h, trapWith_none (by simpa using h)]
  | some n =>
    rw [trapWith_some h, trapWith_some (by simpa using h)]
    rfl

end

/-- The two states differ in the fault record at most. -/
def SameButRecord (t t' : State) : Prop := ∃ c a w, t' = t.withRecord c a w

theorem sameButRecord_refl (t : State) : SameButRecord t t := ⟨t.faultCause, t.faultAddr, t.faultWord, rfl⟩

/-- If the first outcome is a next state, so is the second, and they differ in the fault record at most. -/
def AgreeButRecord (p q : StepResult) : Prop := ∀ t, p = .next t → ∃ t', q = .next t' ∧ SameButRecord t t'

theorem agreeButRecord_next {t t' : State} (h : SameButRecord t t') : AgreeButRecord (.next t) (.next t') := by
  rintro u ⟨⟩
  exact ⟨t', rfl, h⟩

/-- The field check reads no record, and its fault replaces it: what it goes on with decides. -/
theorem withFields_agreeButRecord {m : Mnemonic} {gr xr : Nibble} {s : State} {c : FaultCause} {a w : Word}
    {k k' : Reg → Reg → StepResult} (h : ∀ r x, AgreeButRecord (k r x) (k' r x)) :
    AgreeButRecord (withFields m gr xr s k) (withFields m gr xr (s.withRecord c a w) k') := by
  rcases withFields_cases m gr xr s k with ⟨r, x, hr, hx, he⟩ | ⟨hl, he⟩
  · rw [he, withFields_legal hr hx]
    exact h r x
  · rw [he, withFields_illegal hl]
    exact agreeButRecord_next (sameButRecord_refl _)

theorem resultOp_agreeButRecord {m : Mnemonic} {f : Word → Word → AluResult} {gr xr : Nibble} {adr : Word} {s : State}
    {c : FaultCause} {a w : Word} :
    AgreeButRecord (resultOp m f gr xr adr s) (resultOp m f gr xr adr (s.withRecord c a w)) := by
  refine withFields_agreeButRecord fun r x => ?_
  simp only [readReg_withRecord, memRead_withRecord, effectiveAddress_withRecord]
  cases f (readReg r s) (memRead (effectiveAddress x adr s) s) with
  | value v => exact agreeButRecord_next ⟨c, a, w, by simp⟩
  | trap => exact agreeButRecord_next (sameButRecord_refl _)
  | stuck reason => rintro t ⟨⟩

/-- An instruction does the same from another fault record. -/
theorem exec_agreeButRecord (i : Instr) (s : State) (c : FaultCause) (a w : Word) :
    AgreeButRecord (exec i s) (exec i (s.withRecord c a w)) := by
  cases i with
  | add | sub | mul | and | or | eor => exact resultOp_agreeButRecord (f := AluResult.always _)
  | div | mod | sla | sra | sll | srl => exact resultOp_agreeButRecord
  | halt | ld | st | lea | cpa | cpl | jmp | jpz | jmi | jnz | jze | push | pop | call | ret | syscall =>
    exact withFields_agreeButRecord fun r x => agreeButRecord_next ⟨c, a, w, by simp⟩

/-- A step does the same from another fault record. -/
theorem step_agreeButRecord (s : State) (c : FaultCause) (a w : Word) :
    AgreeButRecord (step s) (step (s.withRecord c a w)) := by
  rcases step_cases s with ⟨hs, hstep⟩ | ⟨hs, i, hdecode, hstep⟩ | ⟨hs, ⟨e, hdecode⟩, hstep⟩
  · have hstep' : step (s.withRecord c a w) = .next (s.withRecord c a w) := if_pos hs
    rw [hstep, hstep']
    exact agreeButRecord_next ⟨c, a, w, rfl⟩
  · rw [fetchWord0, fetchWord1, word1Address_eq] at hdecode
    rw [hstep, step_of_decode_ok (s := s.withRecord c a w) hs hdecode]
    exact exec_agreeButRecord i s c a w
  · rw [fetchWord0, fetchWord1, word1Address_eq] at hdecode
    rw [hstep, step_of_decode_error (s := s.withRecord c a w) hs hdecode]
    exact agreeButRecord_next (sameButRecord_refl _)

/-! ## Undefined opcodes (R103) -/

/-- The decoder refuses a Word 0 with an opcode byte outside the defined set, whatever its fields. -/
theorem decode_undefinedOpcode {w0 : Word} (h : Mnemonic.ofOpc (opField w0) = none) (w1 : Word) :
    ∃ e, decode w0 w1 = .error e := by
  cases hd : decode w0 w1 with
  | ok i =>
    obtain ⟨-, -, m, hm, -⟩ := decode_ok hd
    rw [h] at hm
    cases hm
  | error e => exact ⟨e, rfl⟩

/-- The bytes outside the defined set, as numbers (R76). -/
theorem ofOpc_eq_none_of_gap {op : Byte} (h0 : op ≠ 0x00) (h : op.toNat < 0x10 ∨ 0x2A < op.toNat) :
    Mnemonic.ofOpc op = none := by
  cases hm : Mnemonic.ofOpc op with
  | none => rfl
  | some m =>
    rcases exists_ofOpc_iff.mp ⟨m, hm⟩ with hhalt | ⟨hlow, hhigh⟩
    · exact absurd hhalt h0
    · omega

/-! ## The host's restore (R239) -/

@[simp] theorem readReg_restore (r : Reg) (snap s : State) : readReg r (restore snap s) = readReg r snap := by
  cases r <;> rfl

@[simp] theorem memRead_restore (a : Word) (snap s : State) : memRead a (restore snap s) = memRead a snap := rfl

end Sys2Proof.Machine

namespace Sys2Proof

open Sys2Proof.Machine

/-! ## The statements -/

/-- Settles O36. -/
theorem haltedStepDoesNothing : Obligations.HaltedStepDoesNothing :=
  fun _ hs => if_pos hs

/-- Settles O37: what the decoder refuses is a fault, and every instruction answers a next state and leaves the record
alone or takes a fault with the word that was decoded. -/
theorem everyStepIsCleanOrPreciseFault : Obligations.EveryStepIsCleanOrPreciseFault := by
  intro s
  rcases step_cases s with ⟨-, hstep⟩ | ⟨hs, i, hdecode, hstep⟩ | ⟨hs, -, hstep⟩
  · exact ⟨s, hstep, .inl ⟨rfl, rfl, rfl, rfl⟩⟩
  · have hword0 : i.word0 = memRead s.pc s := word0_of_decode hdecode
    obtain ⟨t, ht⟩ := exec_answers i s
    refine ⟨t, hstep.trans ht, ?_⟩
    rw [← hword0]
    exact (exec_record ht).imp_right fun hfault => ⟨hs, hfault⟩
  · exact ⟨_, hstep, .inr ⟨hs, .inl (faultTaken_raiseFault _ _ s)⟩⟩

/-- Settles O38: a halted step and the decoder's own fault leave another cause, so the step ran an instruction. -/
theorem arithmeticFaultOnlyFromSix : Obligations.ArithmeticFaultOnlyFromSix := by
  intro s t hs h ht
  rcases step_cases s with ⟨-, hstep⟩ | ⟨-, i, hdecode, hstep⟩ | ⟨-, -, hstep⟩ <;> rw [hstep] at h
  · cases h
    exact absurd ht hs
  · rw [fetchWord0, fetchWord1, word1Address_eq] at hdecode
    exact ⟨i, hdecode, exec_arithmeticFault h hs ht⟩
  · cases h
    cases ht

/-- Settles O44: the two steps end in states that differ in the fault record at most. -/
theorem faultRecordIsNotRead : Obligations.FaultRecordIsNotRead := by
  intro s t cause addr word h
  obtain ⟨_, hstep, c, a, w, rfl⟩ := step_agreeButRecord s cause addr word t h
  exact ⟨_, hstep, ⟨readReg_withRecord c a w t, rfl, rfl, fun _ => rfl⟩, rfl, rfl⟩

/-- Settles O34: the decoder refuses the word by its opcode, and fault entry is precise. -/
theorem undefinedOpcodeFaults : Obligations.UndefinedOpcodeFaults := by
  rintro s hs ⟨h0, hgap⟩
  obtain ⟨e, he⟩ := decode_undefinedOpcode (ofOpc_eq_none_of_gap h0 hgap) (memRead (s.pc + 1) s)
  exact ⟨_, step_of_decode_error hs he, faultTaken_raiseFault _ _ s⟩

/-- Settles O54: a restore takes every field but the handler from the snapshot, and `jump` is a write of PC. -/
theorem restoreAndJump : Obligations.RestoreAndJump :=
  fun s u p =>
    ⟨⟨fun r => readReg_restore r s u, rfl, rfl, fun a => memRead_restore a s u⟩, rfl, rfl, rfl, rfl, rfl, rfl,
      fun r => readReg_setPc r p u, fun a => memRead_setPc a p u, ⟨rfl, rfl, rfl, rfl, rfl⟩, rfl⟩

/-- Settles O55: the two tests of the code, by the sign of FR. -/
theorem statusCodeOfFlag : Obligations.StatusCodeOfFlag := by
  intro fr
  refine ⟨fun hpos => ?pos, fun hneg => ?neg, fun hzero => ?zero⟩
  case pos => exact if_pos hpos
  case neg => exact (if_neg (not_lt.mpr hneg.le)).trans (if_pos hneg)
  case zero => exact (if_neg hzero.le.not_gt).trans (if_neg hzero.ge.not_gt)

end Sys2Proof
end

section
/-! SUPPORT. HALT with legal fields (R190), and SYSCALL with a legal id, up to the trap (R191); then the reading of a
cell after the handler's list of writes (R192). From these, the statements of spec/48_system.md. -/

namespace Sys2Proof.Machine

theorem npc_of_one_word {m : Mnemonic} (h : m.words = 1) (s : State) : npc m s = s.pc + 1 := by
  rw [npc_eq, h]
  rfl

/-! ## HALT (R190) -/

theorem exec_halt_of_legal {gr xr : Nibble} {r x : Reg} (hr : Reg.ofField gr = some r) (hx : Reg.ofField xr = some x)
    (s : State) : exec (.halt gr xr) s = .next (setHalted true (setPc (npc .halt s) s)) :=
  withFields_legal hr hx s _

/-! ## SYSCALL (R79, R191) -/

theorem toNat_gr_syscall (id : Byte) : (Instr.syscall id).gr.toNat = id.toNat / 16 := by
  have := id.isLt
  rw [Instr.gr, BitVec.extractLsb'_toNat, Nat.shiftRight_eq_div_pow]
  omega

theorem toNat_xr_syscall (id : Byte) : (Instr.syscall id).xr.toNat = id.toNat % 16 := by
  rw [Instr.xr, BitVec.extractLsb'_toNat, Nat.shiftRight_eq_div_pow]
  omega

/-- An id is legal if both its halves are (R74, R79). -/
theorem syscall_wellFormed {id : Byte} (hhigh : id.toNat / 16 ≤ 4) (hlow : id.toNat % 16 ≤ 4) :
    (Instr.syscall id).WellFormed := by
  rw [wellFormed_iff, legalField_iff, legalField_iff, toNat_gr_syscall, toNat_xr_syscall]
  exact ⟨hhigh, hlow⟩

/-- With a legal id SYSCALL hands the advanced state to the trap. -/
theorem exec_syscall_of_legal {id : Byte} (h : (Instr.syscall id).WellFormed) (s : State) :
    exec (.syscall id) s = .next (trapWith Config.handler id (setPc (s.pc + 1) s)) := by
  obtain ⟨hg, hx⟩ := wellFormed_iff.mp h
  obtain ⟨r, hr⟩ := ofField_of_legalField hg
  obtain ⟨x, hx⟩ := ofField_of_legalField hx
  rw [← npc_of_one_word (m := .syscall) rfl]
  exact withFields_legal hr hx s _

/-- SYSCALL's word is its opcode byte and the id (R79, R81). -/
theorem toNat_encode_syscall (id : Byte) : (encode (.syscall id)).map BitVec.toNat = [0x2A00 + id.toNat] := by
  have hopc : Mnemonic.syscall.opc.toNat = 0x2A := rfl
  have hword0 : (Instr.syscall id).word0.toNat = 0x2A00 + id.toNat := by
    rw [Instr.word0, toNat_word0Of, toNat_gr_syscall, toNat_xr_syscall, Instr.mnemonic, hopc]
    omega
  exact congrArg (· :: []) hword0

/-! ## The handler's writes (R192) -/

/-- After a list of writes, oldest first, a cell holds the last word written there, else what it held. -/
theorem Memory.read_writeAll (m : Memory) (ws : List (Word × Word)) (a : Word) :
    (m.writeAll ws).read a = (ws.reverse.lookup a).getD (m.read a) := by
  induction ws generalizing m with
  | nil => rfl
  | cons w rest ih =>
    obtain ⟨b, v⟩ := w
    rw [Memory.writeAll, ih, List.reverse_cons, List.lookup_append, Memory.read_write]
    cases rest.reverse.lookup a with
    | some u => rfl
    | none => by_cases hab : a = b <;> simp [hab]

theorem memRead_handlerReturn (a : Word) (reply : Config.HandlerReply) (s : State) :
    memRead a (handlerReturn reply s) = (reply.writes.reverse.lookup a).getD (memRead a s) :=
  Memory.read_writeAll s.mem reply.writes a

end Sys2Proof.Machine

namespace Sys2Proof

open Sys2Proof.Machine

/-! ## The statements -/

/-- Settles O29: HALT advances PC and sets `halted`, so the next step is the one of a halted machine; 0x0000 is the
Word 0 of the HALT with both fields 0. -/
theorem haltSetsHalted : Obligations.HaltSetsHalted := by
  refine ⟨fun gr xr r x s hr hx => ⟨rfl, _, exec_halt_of_legal hr hx s, rfl, ?pc, ?regs, rfl, ?mem, ?record, ?step⟩,
    fun w => decode_word0 (i := .halt 0 0) rfl w⟩
  case pc => exact npc_of_one_word rfl s
  case regs => exact fun q => by simp
  case mem => exact fun a => by simp
  case record => simp [SameRecord]
  case step => exact haltedStepDoesNothing _ (setHalted_halted ..)

/-- Settles O30: with no handler the trap does nothing, so SYSCALL sets PC alone. -/
theorem syscallWithoutHandler : Obligations.SyscallWithoutHandler := by
  intro id s hhigh hlow hhook
  refine ⟨toNat_encode_syscall id, goesTo_of_exec ?_⟩
  rw [exec_syscall_of_legal (syscall_wellFormed hhigh hlow), trapWith_none (by simpa using hhook)]

/-- Settles O31: the handler is called on the view of the advanced state, and its reply is taken over field by field. -/
theorem syscallCallsTheHandler : Obligations.SyscallCallsTheHandler := by
  intro id s n hhigh hlow hhook reply
  have hview : (setPc (s.pc + 1) s).handlerView = { s.handlerView with pc := s.pc + 1 } := rfl
  refine ⟨handlerReturn reply (setPc (s.pc + 1) s), ?exec, rfl, rfl, rfl, rfl, rfl, rfl, rfl, rfl, ?record,
    fun a => ?cell⟩
  case exec =>
    rw [exec_syscall_of_legal (syscall_wellFormed hhigh hlow), trapWith_some (s := setPc (s.pc + 1) s) hhook, hview]
  case record => exact ⟨rfl, rfl, rfl, rfl⟩
  case cell => rw [memRead_handlerReturn, memRead_setPc]

end Sys2Proof
end

section
/-! SUPPORT. POP and CALL by what they write (R181, R182), with the orders of decision D20: POP reads SP after it has
written its register, CALL reads its target after it has stored the return address. From these, the statements of
spec/47_stack_call.md on POP and CALL. -/

namespace Sys2Proof.Machine

/-- The increment of a POP into GR4 is of the popped word (decision D20). -/
theorem exec_pop_of_sp {gr xr : Nibble} {x : Reg} (hr : Reg.ofField gr = some .sp) (hx : Reg.ofField xr = some x)
    (s : State) :
    exec (.pop gr xr) s =
      .next (setPc (npc .pop s)
        (writeReg .sp (memRead (readReg .sp s) s + 1) (writeReg .sp (memRead (readReg .sp s) s) s))) := by
  rw [exec_pop_of_legal hr hx, poppedSp_eq, readReg_writeReg_same]

/-- The target of a CALL is the cell at the effective address, but the return address if that is where it was just
stored (decision D20). -/
theorem memRead_after_call_store (a : Word) (s : State) :
    memRead a (memWrite (pushAddress s) (npc .call s) s) =
      if a = readReg .gr4 s - 1 then s.pc + 2 else memRead a s := by
  rw [memRead_memWrite, pushAddress_eq, npc_of_two_words rfl]

end Sys2Proof.Machine

namespace Sys2Proof

open Sys2Proof.Machine

/-! ## The statements -/

/-- Settles O24: into another register than GR4 the two writes do not meet; into GR4 the increment overwrites the popped
word. -/
theorem popLoadsAndIncrements : Obligations.PopLoadsAndIncrements := by
  intro gr xr r x s hr hx
  by_cases hsp : r = .gr4
  · subst hsp
    refine ⟨_, exec_pop_of_sp hr hx s, fun hne => absurd rfl hne, fun _ => ?sp, fun q _ hq => ?others, ?pc, ?fr,
      fun a => ?mem, ?control⟩
    case sp => simp
    case others => rw [readReg_setPc, readReg_writeReg_of_ne hq, readReg_writeReg_of_ne hq]
    case pc => exact npc_of_one_word rfl s
    case fr => simp
    case mem => simp
    case control => simp [SameControl, SameRecord]
  · refine ⟨_, exec_pop_of_ne_sp hr hx hsp s, fun _ => ⟨?register, ?sp⟩, fun heq => absurd heq hsp,
      fun q hqr hq => ?others, ?pc, ?fr, fun a => ?mem, ?control⟩
    case register => rw [readReg_setPc, readReg_writeReg_of_ne hsp, readReg_writeReg_same]
    case sp => simp
    case others => rw [readReg_setPc, readReg_writeReg_of_ne hq, readReg_writeReg_of_ne hqr]
    case pc => exact npc_of_one_word rfl s
    case fr => simp
    case mem => simp
    case control => simp [SameControl, SameRecord]

/-- Settles O25: one cell write, PC and SP; the target is read after the write. -/
theorem callPushesAndJumps : Obligations.CallPushesAndJumps := by
  intro gr xr adr r x s hr hx
  refine ⟨_, exec_call_of_legal hr hx adr s, ?cell, ?reg, ?pc, ?fr, ?control⟩
  case cell => exact onlyCell_memWrite (by rw [← npc_of_two_words (m := .call) rfl]; simp)
  case reg => exact onlyReg_of_readReg_eq_ite fun q => by simp [readReg_writeReg, pushAddress_eq]
  case pc => rw [writeReg_pc, setPc_pc, memRead_after_call_store]
  case fr => simp
  case control => simp [SameControl, SameRecord]

end Sys2Proof
end

section
/-! SUPPORT. What the reset port answers (R250, R251) and the cells of a loaded image (R44). From these, the
statement of spec/70_reset_and_hazards.md. -/

namespace Sys2Proof.Machine

theorem resetPort_of_fits {image : List Word} {startPc : Nat} (himage : image.length ≤ Config.memWords)
    (hstart : startPc < Config.memWords) (hook : Option Nat) :
    resetPort image startPc hook = .next (resetState image (BitVec.ofNat 16 startPc) hook) := by
  rw [resetPort, if_neg (not_lt.mpr himage), if_neg (not_le.mpr hstart)]

/-- A too long image is refused before the start address is looked at. -/
theorem resetPort_refuses {image : List Word} {startPc : Nat}
    (h : Config.memWords < image.length ∨ Config.memWords ≤ startPc) (hook : Option Nat) :
    ∃ why, resetPort image startPc hook = .refused why := by
  unfold resetPort
  split
  · exact ⟨_, rfl⟩
  · next himage => exact ⟨_, if_pos (h.resolve_left himage)⟩

/-- Cell `i` holds word `i` of the image, or 0 beyond its end. -/
theorem memRead_resetState (image : List Word) (startPc : Word) (hook : Option Nat) (a : Word) :
    memRead a (resetState image startPc hook) = image.getD a.toNat 0 := by
  have hcell := Memory.lookup_ofImage image 0 a.toNat
  rw [if_pos (Nat.zero_le _), Nat.sub_zero] at hcell
  exact hcell

end Sys2Proof.Machine

namespace Sys2Proof

open Sys2Proof.Machine

/-! ## The statements -/

/-- Settles O51: an image that fits and a start address in memory pass both checks of the port; any other fails one. -/
theorem resetPortLeaves : Obligations.ResetPortLeaves := by
  intro image startPc hook
  refine ⟨fun himage hstart => ?accept, fun h => resetPort_refuses h hook⟩
  case accept =>
    have hlt : startPc < Config.memWords := Nat.lt_succ_of_le hstart
    have hpc : (BitVec.ofNat 16 startPc).toNat = startPc := (BitVec.toNat_ofNat startPc 16).trans (Nat.mod_eq_of_lt hlt)
    exact ⟨_, resetPort_of_fits himage hlt hook, rfl, rfl, rfl, rfl, rfl, rfl, hpc, rfl, rfl, rfl,
      memRead_resetState image _ hook⟩

end Sys2Proof
end

section
/-! SUPPORT. The sample words of spec/95_test_vectors.md 2.1, by the decoder's own lemmas. -/

namespace Sys2Proof

open Sys2Proof.Machine

/-- Settles O3: a legal word is the Word 0 of its instruction; two of the illegal words have a field above 4, the other
two an opcode byte outside the defined set. -/
theorem sampleWordsDecode : Obligations.SampleWordsDecode :=
  ⟨decode_word0 (i := .add 1 2 0) rfl 0x0020, decode_word0 (i := .push 3 4 0) rfl 0x0001,
    decode_word0 (i := .pop 2 0) rfl 0x1234, decode_word0 (i := .ret 0 0) rfl 0x0000,
    decode_word0 (i := .halt 4 4) rfl 0xFFFF, decode_word0 (i := .syscall 0x44) rfl 0x0000,
    decode_word0 (i := .srl 0 0 0) rfl 0x0041, decode_word0 (i := .cpl 3 0 0) rfl 0x0045,
    decode_illegalField (w0 := 0x2A05) (.inr (by decide)) 0x0000,
    decode_illegalField (w0 := 0x1350) (.inl (by decide)) 0x0000, rfl, rfl⟩

end Sys2Proof
end

section
/-! SUPPORT. The first line of an output, unknown or of a defined opcode with a legal `gr` (R204, R206), and the texts
of the lines with numbers as Lean's own `toString` writes them (R202, R203). From these, the statements of
spec/49_disassembler.md. -/

namespace Sys2Proof.Machine

/-! ## The first line (R204, R206) -/

theorem renderLine_of_unknown {m : Memory} {a : Word} (h : unknownLine (m.read a) = true) (cpl : Config.CplClass) :
    renderLine cpl m a = (unknownMark, none) := if_pos h

/-- A defined opcode is not above the highest one, so with a legal `gr` no check of R204 fails. -/
theorem unknownLine_of_known {w : Word} {mn : Mnemonic} (hg : legalField (grField w) = true)
    (hmn : Mnemonic.ofOpc (opField w) = some mn) : unknownLine w = false := by
  have hhigh : (opField w).toNat ≤ 0x2A := by
    rcases exists_ofOpc_iff.mp ⟨mn, hmn⟩ with hhalt | ⟨-, hle⟩
    · rw [hhalt]
      decide
    · exact hle
  rw [← Bool.not_eq_true, unknownLine_eq_true_iff]
  simp [hg, hmn, hhigh]

/-- An unknown line is the last (R204). -/
theorem render_of_unknown {m : Memory} {a : Word} (h : unknownLine (m.read a) = true) (n : Nat) :
    render m a (n + 1) = ["unknown"] := by
  rw [render, renderWith, renderLine_of_unknown h]
  rfl

/-- A line that is not unknown is followed by the output from the address after its words (R206). -/
theorem render_of_known {m : Memory} {a : Word} {mn : Mnemonic} (hg : legalField (grField (m.read a)) = true)
    (hmn : Mnemonic.ofOpc (opField (m.read a)) = some mn) (n : Nat) :
    render m a (n + 1) =
      lineText .registerOperand mn (grField (m.read a)) (xrField (m.read a)) (m.read (a + 1)) ::
        render m (a + BitVec.ofNat 16 mn.words) n := by
  rcases renderLine_cases disasmCplClass m a with ⟨hu, -⟩ | ⟨mn', hmn', -, hline⟩
  · simp [unknownLine_of_known hg hmn] at hu
  · cases hmn.symm.trans hmn'
    rw [render, renderWith, hline]
    rfl

/-- The two ways an output can begin. -/
theorem render_succ_cases (m : Memory) (a : Word) (n : Nat) :
    render m a (n + 1) = ["unknown"] ∨ ∃ text next, render m a (n + 1) = text :: render m next n := by
  rcases renderLine_cases disasmCplClass m a with ⟨hu, -⟩ | ⟨mn, hmn, hg, -⟩
  · exact .inl (render_of_unknown hu n)
  · exact .inr ⟨_, _, render_of_known hg hmn n⟩

/-! ## The number formats (R203) -/

/-- The model's digits are the sixteen hexadecimal ones, in order. -/
theorem hexDigit_eq_getD {d : Nat} (h : d < 16) :
    hexDigit d =
      ['0', '1', '2', '3', '4', '5', '6', '7', '8', '9', 'A', 'B', 'C', 'D', 'E', 'F'].getD d '0' := by
  revert d
  decide

theorem hex4_eq_upperHex4 (v : Word) : hex4 v = upperHex4 v := by
  have hdigit (n : Nat) := hexDigit_eq_getD (Nat.mod_lt n (by decide : 0 < 16))
  simp only [hex4, upperHex4, List.map_cons, List.map_nil, hdigit, Nat.div_one]

theorem registerText_eq (f : Nibble) : registerText f = "GR" ++ toString f.toNat := by
  have := f.isLt
  rw [registerText, dec_eq_toString (by omega)]

theorem indexText_eq (xr : Nibble) : indexText xr = if xr = 0 then "" else ", GR" ++ toString xr.toNat := by
  have hcomma : ", GR" = ", " ++ "GR" := rfl
  rw [indexText, registerText_eq, hcomma, String.append_assoc]

/-! ## The lines by their class (R202) -/

theorem lineText_syscall (cpl : Config.CplClass) (gr xr : Nibble) (adr : Word) :
    lineText cpl .syscall gr xr adr = "syscall " ++ toString (gr.toNat * 16 + xr.toNat) := by
  have := gr.isLt
  have := xr.isLt
  have hid : dec (idField (word0Of Mnemonic.syscall.opc gr xr)).toNat = toString (gr.toNat * 16 + xr.toNat) := by
    rw [idField_word0Of, toNat_nibbles, dec_eq_toString (by omega)]
  rw [← hid]
  rfl

theorem lineText_pop (cpl : Config.CplClass) (gr xr : Nibble) (adr : Word) :
    lineText cpl .pop gr xr adr = "POP GR" ++ toString gr.toNat := by
  have hline : lineText cpl .pop gr xr adr = "POP " ++ registerText gr := rfl
  have hstart : "POP GR" = "POP " ++ "GR" := rfl
  rw [hline, registerText_eq, hstart, String.append_assoc]

theorem lineText_of_registerOperand {cpl : Config.CplClass} {m : Mnemonic} (h : lineClass cpl m = .registerOperand)
    (gr xr : Nibble) (adr : Word) :
    lineText cpl m gr xr adr =
      mnemonicText m ++ " GR" ++ toString gr.toNat ++ ", " ++ upperHex4 adr ++
        if xr = 0 then "" else ", GR" ++ toString xr.toNat := by
  have hspace : " GR" = " " ++ "GR" := rfl
  simp only [lineText, operandText, h, registerText_eq, hex4_eq_upperHex4, indexText_eq, hspace, String.append_assoc]

theorem lineText_of_addressOnly {cpl : Config.CplClass} {m : Mnemonic} (h : lineClass cpl m = .addressOnly)
    (gr xr : Nibble) (adr : Word) :
    lineText cpl m gr xr adr =
      mnemonicText m ++ " " ++ upperHex4 adr ++ if xr = 0 then "" else ", GR" ++ toString xr.toNat := by
  simp only [lineText, operandText, h, hex4_eq_upperHex4, indexText_eq, String.append_assoc]

/-- The class and the mnemonic of the seventeen, CPL among them (decision D13). -/
theorem registerOperandTexts_spec :
    ∀ p ∈ registerOperandTexts, lineClass .registerOperand p.1 = .registerOperand ∧ mnemonicText p.1 = p.2 := by
  decide

theorem addressOnlyTexts_spec :
    ∀ p ∈ addressOnlyTexts, lineClass .registerOperand p.1 = .addressOnly ∧ mnemonicText p.1 = p.2 := by
  decide

end Sys2Proof.Machine

namespace Sys2Proof

open Sys2Proof.Machine

/-! ## The statements -/

/-- Settles O57: an opcode that is not defined or too high and a `gr` above 4 are the three checks of an unknown
line. -/
theorem renderStopsAtUnknown : Obligations.RenderStopsAtUnknown := by
  refine fun m a n => ⟨fun h => ?unknown, fun hg mn hmn => ?known⟩
  case unknown =>
    have hunknown : unknownLine (m.read a) = true := by
      rw [unknownLine_eq_true_iff, legalField_eq_false_iff]
      tauto
    exact render_of_unknown hunknown n
  case known => exact render_of_known ((legalField_iff _).mpr hg) hmn n

/-- Settles O56: what the engine's decoder accepts is a known line, of the same mnemonic and fields. -/
theorem renderFollowsTheDecoder : Obligations.RenderFollowsTheDecoder := by
  intro m a n i h
  obtain ⟨hg, -, mn, hmn, rfl⟩ := decode_ok h
  rw [mnemonic_instr, gr_instr, xr_instr]
  exact render_of_known hg hmn n

/-- Settles O58, by induction on the count: a line either ends the output as unknown or leaves one line less to
print. -/
theorem renderLineCount : Obligations.RenderLineCount := by
  intro m a n
  induction n generalizing a with
  | zero => exact ⟨le_refl 0, fun _ => rfl⟩
  | succ n ih =>
    rcases render_succ_cases m a n with hrender | ⟨text, next, hrender⟩ <;> rw [hrender]
    · exact ⟨Nat.le_add_left 1 n, fun h => absurd (List.mem_singleton_self _) h⟩
    · obtain ⟨hle, heq⟩ := ih next
      exact ⟨Nat.succ_le_succ hle, fun h => congrArg (· + 1) (heq fun hrest => h (List.mem_cons_of_mem _ hrest))⟩

/-- Settles O59: both are known lines of one word in the class without operands. -/
theorem haltAndRetLinesHaveNoOperand : Obligations.HaltAndRetLinesHaveNoOperand := by
  intro m a n hg
  have hlegal : legalField (grField (m.read a)) = true := (legalField_iff _).mpr hg
  refine ⟨fun hop => ?halt, fun hop => ?ret⟩
  case halt => exact render_of_known (mn := .halt) hlegal (by rw [hop]; rfl) n
  case ret => exact render_of_known (mn := .ret) hlegal (by rw [hop]; rfl) n

/-- Settles O60: one text per class, with the class and the mnemonic of each instruction from the two tables. -/
theorem lineTextsByClass : Obligations.LineTextsByClass := by
  intro gr xr adr index
  refine ⟨lineText_syscall _ gr xr adr, rfl, rfl, lineText_pop _ gr xr adr, fun p hp => ?registerOperand,
    fun p hp => ?addressOnly, lineText_of_addressOnly rfl gr xr adr⟩
  case registerOperand =>
    obtain ⟨hclass, htext⟩ := registerOperandTexts_spec p hp
    rw [lineText_of_registerOperand hclass, htext]
  case addressOnly =>
    obtain ⟨hclass, htext⟩ := addressOnlyTexts_spec p hp
    rw [lineText_of_addressOnly hclass, htext]

end Sys2Proof
end
